-- ==== Sys2Proof/Word.lean ====
section
/-! DEFINITION. The bit-vector types of the core (spec/00_scope.md R6, R11, R12).
Every register, memory word and the pc is a 32-bit vector; signed and unsigned are two readings
of it (`BitVec.toInt`, `BitVec.toNat`). Field helpers stand in Decode.lean. -/

namespace Sys2Proof

/-- A 32-bit vector (R12). -/
abbrev Word := BitVec 32

/-- One byte of the memory array (R51). -/
abbrev Byte := BitVec 8

/-- A 5-bit register index, read as an unsigned number 0 to 31 (R20, R89). -/
abbrev RegIdx := BitVec 5

/-- The 32 general registers, one bank (R20). -/
abbrev Regs := Vector Word 32

/-- The 32-bit value of register `r` (R13 `x[i]`); every index an instruction can name exists (R20). -/
def Regs.get (x : Regs) (r : RegIdx) : Word := Vector.get x r.toFin

/-- The register file with register `r` replaced; register 0 is stored like any other (R21). -/
def Regs.set (x : Regs) (r : RegIdx) (v : Word) : Regs := Vector.set x r.toFin v

end Sys2Proof
end

