-- ==== Sys2Proof/Syntax.lean ====
section
/-! DEFINITION. The instruction set as syntax: the closed operation tag (spec/40_decoder.md R116),
the Decoded Instruction record (R119), and `Instr`, one constructor per row of
spec/opcode_table.json (R2, R90, R91).

A constructor of `Instr` holds EVERY field of its format but the selector, the ignored ones too
(spec/30_encoding.md R92), so that an instruction and its 32-bit word determine each other
(R120); the arm of an instruction in Machine/Dispatch.lean drops the ignored fields. -/

namespace Sys2Proof

/-- The three instruction-word layouts (R84). -/
inductive Format where
  | r
  | i
  | j
  deriving DecidableEq, Repr

/-- The operation tag, a closed enumeration with twenty-one members (R116). -/
inductive Op where
  | addu | subu | and | or | xor | nor | slt | sll | srl | jr
  | addiu | andi | ori | lui | beq | bne | lw | sw
  | j | jal
  | unsupported
  deriving DecidableEq, Repr

/-- The Decoded Instruction record: a sum of three shapes with exact widths, so that no field
outside the active format can be read (R112, R119). -/
inductive Decoded where
  | r (opcode : BitVec 6) (rs rt rd : RegIdx) (shamt : BitVec 5) (funct : BitVec 6) (op : Op)
  | i (opcode : BitVec 6) (rs rt : RegIdx) (imm16 : BitVec 16) (imm32 : Word) (op : Op)
  | j (opcode : BitVec 6) (target26 : BitVec 26) (target : Word) (op : Op)
  deriving DecidableEq, Repr

/-- One printed operand of the formatter, for the instruction classes whose operands the source
names (R212). -/
inductive TextOperand where
  /-- a register, written `$n` -/
  | reg (r : RegIdx)
  /-- a shift amount -/
  | shamt (n : BitVec 5)
  /-- the second operand of a shift, in the source's own words "rs-as-implicit-zero"; what is
  printed for it is open (spec/91_not_in_source.md N21) -/
  | rsAsImplicitZero
  /-- the `offset(rs)` of a load or store -/
  | offsetBase (offset : Word) (base : RegIdx)
  /-- the resolved absolute target address of a branch or jump -/
  | target (address : Word)
  deriving DecidableEq, Repr

/-- The twenty instructions. Operands are listed in the order of the word's fields, most
significant first; the fields R92 calls ignored are those the arm of `exec` drops. -/
inductive Instr where
  | sll (rs rt rd : RegIdx) (shamt : BitVec 5)
  | srl (rs rt rd : RegIdx) (shamt : BitVec 5)
  | jr (rs rt rd : RegIdx) (shamt : BitVec 5)
  | addu (rs rt rd : RegIdx) (shamt : BitVec 5)
  | subu (rs rt rd : RegIdx) (shamt : BitVec 5)
  | and (rs rt rd : RegIdx) (shamt : BitVec 5)
  | or (rs rt rd : RegIdx) (shamt : BitVec 5)
  | xor (rs rt rd : RegIdx) (shamt : BitVec 5)
  | nor (rs rt rd : RegIdx) (shamt : BitVec 5)
  | slt (rs rt rd : RegIdx) (shamt : BitVec 5)
  | j (target26 : BitVec 26)
  | jal (target26 : BitVec 26)
  | beq (rs rt : RegIdx) (imm16 : BitVec 16)
  | bne (rs rt : RegIdx) (imm16 : BitVec 16)
  | addiu (rs rt : RegIdx) (imm16 : BitVec 16)
  | andi (rs rt : RegIdx) (imm16 : BitVec 16)
  | ori (rs rt : RegIdx) (imm16 : BitVec 16)
  | lui (rs rt : RegIdx) (imm16 : BitVec 16)
  | lw (rs rt : RegIdx) (imm16 : BitVec 16)
  | sw (rs rt : RegIdx) (imm16 : BitVec 16)
  deriving DecidableEq, Repr

end Sys2Proof
end

