-- ==== Sys2Proof/Config.lean ====
section
/-! DEFINITION. What the source leaves to the implementation (spec/00_scope.md R7): the parameters
`BASE`, `NI`, `ND`, `SP_INDEX` as one record, the addresses derived from them, and the formatter's
text, which stays open. The record stands in the state (`State.cfg`), so a claim can be stated for
all parameter values, as spec/91_not_in_source.md N3 and N6 ask; no step writes it. The spec's
default values are in Machine/Params.lean and the selector table (`SelectorTable`) in Decode.lean,
where a later audit can replace them. -/

namespace Sys2Proof

/-- The implementation parameters of R7. `LINK` is no parameter: the source fixes it at 31. -/
structure Params where
  /-- `BASE`: byte address of word 0 of the memory array and of the code segment -/
  base : Nat
  /-- `NI`: code-segment capacity in words -/
  ni : Nat
  /-- `ND`: data-segment capacity in words -/
  nd : Nat
  /-- `SP_INDEX`: the register the source calls the stack pointer -/
  spIndex : RegIdx
  deriving DecidableEq, Repr

/-- `TOP = BASE + 4*(NI+ND)`: the address just past the memory array (R7, R50). -/
def Params.top (c : Params) : Nat := c.base + 4 * (c.ni + c.nd)

/-- `DATA_LO = BASE + 4*NI`: the lowest byte address of the data window (R7, R55). -/
def Params.dataLo (c : Params) : Nat := c.base + 4 * c.ni

/-- `DATA_HI = TOP`: the address just past the data window (R7, R55). -/
def Params.dataHi (c : Params) : Nat := c.top

namespace Config

/-- `FormatText`: the exact string the formatter prints for a decoded instruction at a pc, given the
operands the source names for its class, if it names them. Left open by R212 (N21, N22); the
constant has no body, so no claim can depend on its value. -/
opaque formatText : Decoded → Word → Option (List TextOperand) → String

end Config

end Sys2Proof
end

