-- ==== Sys2Proof/WellFormed.lean ====
section
/-! DEFINITION. Well-formedness. Every field of `Instr` and `Decoded` has the exact width the
encoding gives it (spec/40_decoder.md R119), so an operand out of range cannot be written and an
instruction needs no check of its own. What does need checks is what the platform supplies
(spec/70_reset_and_hazards.md R253): the parameters (R7) and the image (R252). -/

namespace Sys2Proof

/-- The constraints of R7: `BASE` a multiple of 4, `NI >= 1`, `ND >= 1`, `TOP <= 2^31`.
`SP_INDEX` is 0..31 by its type. -/
abbrev Params.wf (c : Params) : Prop :=
  c.base % 4 = 0 ∧ 1 ≤ c.ni ∧ 1 ≤ c.nd ∧ c.top ≤ 2 ^ 31

/-- `length(IMAGE) <= NI`, the precondition of reset (R7, R252). -/
abbrev Params.imageFits (c : Params) (image : List Word) : Prop :=
  image.length ≤ c.ni

end Sys2Proof
end

