-- ==== Sys2Proof/Decode.lean ====
section
/-! DEFINITION. The instruction decoder (spec/40_decoder.md) and its inverse, over ONE selector
table (spec/30_encoding.md R90, R91; D1's `SelectorTable`). The decoder is total: it returns a
Decoded Instruction for every word (R110, R117); a word outside the table carries the tag
`unsupported`, and `decodeInstr` rejects it by name. -/

namespace Sys2Proof

/-! ## Bit fields, widening, byte order -/

/-- `sext_32(v)` (R13): bits 31..16 all equal `v[15]`. -/
def sext32 (v : BitVec 16) : Word := v.signExtend 32

/-- `zext_32(v)` (R13): the other bits are 0. -/
def zext32 (v : BitVec 16) : Word := v.zeroExtend 32

/-- `top4(v) = v[31:28]` (R13). -/
def top4 (v : Word) : BitVec 4 := v.extractLsb' 28 4

/-- The word whose bytes at addresses `a`, `a+1`, `a+2`, `a+3` are given: big-endian, the byte at `a`
is `word[31:24]` (spec/20_memory.md R51; spec/70_reset_and_hazards.md R252). -/
def wordOfBytes (b0 b1 b2 b3 : Byte) : Word := b0 ++ b1 ++ b2 ++ b3

/-- The byte of `w` at address `a + k`, `k < 4`: big-endian (R51). -/
def byteOfWord (w : Word) (k : Nat) : Byte := w.extractLsb' (8 * (3 - k)) 8

/-! ## The selector table -/

/-- One row of the operation table: format and selector code (a funct for R, an opcode for I and J),
and the operation it names (R116). -/
structure SelectorRow where
  format : Format
  code : BitVec 6
  op : Op
  deriving DecidableEq, Repr

/-- `SelectorTable`: R90 and R91. Only the code of `addu` is the source's; the others are the
standard values the spec adopts (D1, G1; PRESUMED, log entry 3). -/
def selectorTable : List SelectorRow :=
  [⟨.r, 0x00, .sll⟩, ⟨.r, 0x02, .srl⟩, ⟨.r, 0x08, .jr⟩, ⟨.r, 0x21, .addu⟩, ⟨.r, 0x23, .subu⟩,
   ⟨.r, 0x24, .and⟩, ⟨.r, 0x25, .or⟩, ⟨.r, 0x26, .xor⟩, ⟨.r, 0x27, .nor⟩, ⟨.r, 0x2A, .slt⟩] ++
  [⟨.j, 0x02, .j⟩, ⟨.j, 0x03, .jal⟩, ⟨.i, 0x04, .beq⟩, ⟨.i, 0x05, .bne⟩, ⟨.i, 0x09, .addiu⟩,
   ⟨.i, 0x0C, .andi⟩, ⟨.i, 0x0D, .ori⟩, ⟨.i, 0x0F, .lui⟩, ⟨.i, 0x23, .lw⟩, ⟨.i, 0x2B, .sw⟩]

/-- The operation a format and code select; `unsupported` where the table has no row (R93, R116). -/
def lookupOp (f : Format) (code : BitVec 6) : Op :=
  match selectorTable.find? (fun row => row.format == f && row.code == code) with
  | some row => row.op
  | none => .unsupported

/-- The selector code of an operation, the inverse reading of the same table. -/
def codeOf (op : Op) : BitVec 6 :=
  match selectorTable.find? (fun row => row.op == op) with
  | some row => row.code
  | none => 0

/-! ## The decoder -/

/-- Opcode extraction, `word >> 26` (R111). -/
def opcodeField (word : Word) : BitVec 6 := (word >>> 26).setWidth 6

/-- Format classification, a total function of the opcode alone (R84, R112). -/
def formatOf (opcode : BitVec 6) : Format :=
  if opcode = 0 then .r
  else if opcode = codeOf .j ∨ opcode = codeOf .jal then .j
  else .i

/-- The widening policy of the 16-bit immediate (R85, R115): zero for the logical and load-upper
opcodes, sign for every other I-format opcode, the unsupported ones too (D12). -/
def widen (op : Op) (imm16 : BitVec 16) : Word :=
  match op with
  | .andi | .ori | .lui => zext32 imm16
  | _ => sext32 imm16

/-- The J-format target, `top4(pc + 4) ++ target26 ++ 0b00` (R86, R114). -/
def jumpTarget (pc : Word) (target26 : BitVec 26) : Word :=
  top4 (pc + 4) ++ target26 ++ (0 : BitVec 2)

/-- The decoder's contract `decode(word, currentPC)`, pure and total (R110 to R117). -/
def decode (word currentPC : Word) : Decoded :=
  let opcode := opcodeField word
  match formatOf opcode with
  | .r =>
    let funct := word.extractLsb' 0 6
    .r opcode (word.extractLsb' 21 5) (word.extractLsb' 16 5) (word.extractLsb' 11 5)
      (word.extractLsb' 6 5) funct (lookupOp .r funct)
  | .j =>
    let target26 := word.extractLsb' 0 26
    .j opcode target26 (jumpTarget currentPC target26) (lookupOp .j opcode)
  | .i =>
    let imm16 := word.extractLsb' 0 16
    let op := lookupOp .i opcode
    .i opcode (word.extractLsb' 21 5) (word.extractLsb' 16 5) imm16 (widen op imm16) op

/-- The operation tag of a decoded instruction. -/
def Decoded.op : Decoded → Op
  | .r _ _ _ _ _ _ op => op
  | .i _ _ _ _ _ op => op
  | .j _ _ _ op => op

/-- The format of a decoded instruction: exactly one of R, I, J (R84, R112). -/
def Decoded.format : Decoded → Format
  | .r _ _ _ _ _ _ _ => .r
  | .i _ _ _ _ _ _ => .i
  | .j _ _ _ _ => .j

/-- The instruction a decoded record stands for; none for `unsupported` and for a tag that is not of
the record's format (which the decoder never forms: R118). -/
def Decoded.instr : Decoded → Option Instr
  | .r _ rs rt rd shamt _ op =>
    match op with
    | .sll => some (.sll rs rt rd shamt)
    | .srl => some (.srl rs rt rd shamt)
    | .jr => some (.jr rs rt rd shamt)
    | .addu => some (.addu rs rt rd shamt)
    | .subu => some (.subu rs rt rd shamt)
    | .and => some (.and rs rt rd shamt)
    | .or => some (.or rs rt rd shamt)
    | .xor => some (.xor rs rt rd shamt)
    | .nor => some (.nor rs rt rd shamt)
    | .slt => some (.slt rs rt rd shamt)
    | .addiu | .andi | .ori | .lui | .beq | .bne | .lw | .sw | .j | .jal | .unsupported => none
  | .i _ rs rt imm16 _ op =>
    match op with
    | .beq => some (.beq rs rt imm16)
    | .bne => some (.bne rs rt imm16)
    | .addiu => some (.addiu rs rt imm16)
    | .andi => some (.andi rs rt imm16)
    | .ori => some (.ori rs rt imm16)
    | .lui => some (.lui rs rt imm16)
    | .lw => some (.lw rs rt imm16)
    | .sw => some (.sw rs rt imm16)
    | .addu | .subu | .and | .or | .xor | .nor | .slt | .sll | .srl | .jr | .j | .jal
    | .unsupported => none
  | .j _ target26 _ op =>
    match op with
    | .j => some (.j target26)
    | .jal => some (.jal target26)
    | .addu | .subu | .and | .or | .xor | .nor | .slt | .sll | .srl | .jr | .addiu | .andi | .ori
    | .lui | .beq | .bne | .lw | .sw | .unsupported => none

/-- Why bytes do not decode to an instruction. -/
inductive DecodeReject where
  /-- the word is none of the twenty instructions (R93); the step raises UnsupportedInstruction -/
  | unsupportedWord (word : Word)
  /-- fewer than four bytes are left; cannot occur at a fetch, which reads a whole word (R80) -/
  | truncated
  deriving DecidableEq, Repr

/-- The instruction a word stands for, or its rejection by name (R93, R117). -/
def decodeInstr (word currentPC : Word) : Except DecodeReject Instr :=
  match (decode word currentPC).instr with
  | some i => .ok i
  | none => .error (.unsupportedWord word)

/-- Decoding of bytes as memory holds them: the first four, big-endian, and the rest of the list. -/
def decodeBytes (currentPC : Word) : List Byte → Except DecodeReject (Instr × List Byte)
  | b0 :: b1 :: b2 :: b3 :: rest =>
    match decodeInstr (wordOfBytes b0 b1 b2 b3) currentPC with
    | .ok i => .ok (i, rest)
    | .error e => .error e
  | _ => .error .truncated

/-! ## The encoder -/

/-- `opcode<<26 | rs<<21 | rt<<16 | rd<<11 | shamt<<6 | funct` (R81). -/
def assembleR (opcode : BitVec 6) (rs rt rd : RegIdx) (shamt : BitVec 5) (funct : BitVec 6) : Word :=
  opcode ++ rs ++ rt ++ rd ++ shamt ++ funct

/-- `opcode<<26 | rs<<21 | rt<<16 | imm16` (R82). -/
def assembleI (opcode : BitVec 6) (rs rt : RegIdx) (imm16 : BitVec 16) : Word :=
  opcode ++ rs ++ rt ++ imm16

/-- `opcode<<26 | target26` (R83). -/
def assembleJ (opcode : BitVec 6) (target26 : BitVec 26) : Word :=
  opcode ++ target26

/-- The word assembled from a record's own raw fields (R120). -/
def Decoded.word : Decoded → Word
  | .r opcode rs rt rd shamt funct _ => assembleR opcode rs rt rd shamt funct
  | .i opcode rs rt imm16 _ _ => assembleI opcode rs rt imm16
  | .j opcode target26 _ _ => assembleJ opcode target26

/-- The word of an instruction (R81 to R83, R90, R91). -/
def encode : Instr → Word
  | .sll rs rt rd shamt => assembleR 0 rs rt rd shamt (codeOf .sll)
  | .srl rs rt rd shamt => assembleR 0 rs rt rd shamt (codeOf .srl)
  | .jr rs rt rd shamt => assembleR 0 rs rt rd shamt (codeOf .jr)
  | .addu rs rt rd shamt => assembleR 0 rs rt rd shamt (codeOf .addu)
  | .subu rs rt rd shamt => assembleR 0 rs rt rd shamt (codeOf .subu)
  | .and rs rt rd shamt => assembleR 0 rs rt rd shamt (codeOf .and)
  | .or rs rt rd shamt => assembleR 0 rs rt rd shamt (codeOf .or)
  | .xor rs rt rd shamt => assembleR 0 rs rt rd shamt (codeOf .xor)
  | .nor rs rt rd shamt => assembleR 0 rs rt rd shamt (codeOf .nor)
  | .slt rs rt rd shamt => assembleR 0 rs rt rd shamt (codeOf .slt)
  | .j target26 => assembleJ (codeOf .j) target26
  | .jal target26 => assembleJ (codeOf .jal) target26
  | .beq rs rt imm16 => assembleI (codeOf .beq) rs rt imm16
  | .bne rs rt imm16 => assembleI (codeOf .bne) rs rt imm16
  | .addiu rs rt imm16 => assembleI (codeOf .addiu) rs rt imm16
  | .andi rs rt imm16 => assembleI (codeOf .andi) rs rt imm16
  | .ori rs rt imm16 => assembleI (codeOf .ori) rs rt imm16
  | .lui rs rt imm16 => assembleI (codeOf .lui) rs rt imm16
  | .lw rs rt imm16 => assembleI (codeOf .lw) rs rt imm16
  | .sw rs rt imm16 => assembleI (codeOf .sw) rs rt imm16

/-- The operation of an instruction. -/
def Instr.op : Instr → Op
  | .sll _ _ _ _ => .sll
  | .srl _ _ _ _ => .srl
  | .jr _ _ _ _ => .jr
  | .addu _ _ _ _ => .addu
  | .subu _ _ _ _ => .subu
  | .and _ _ _ _ => .and
  | .or _ _ _ _ => .or
  | .xor _ _ _ _ => .xor
  | .nor _ _ _ _ => .nor
  | .slt _ _ _ _ => .slt
  | .j _ => .j
  | .jal _ => .jal
  | .beq _ _ _ => .beq
  | .bne _ _ _ => .bne
  | .addiu _ _ _ => .addiu
  | .andi _ _ _ => .andi
  | .ori _ _ _ => .ori
  | .lui _ _ _ => .lui
  | .lw _ _ _ => .lw
  | .sw _ _ _ => .sw

/-- The instruction the decoder reads from the low `nbits` bits of `w`, laid out as the hardware
stores them (one 32-bit word, big-endian bytes: R51, R80); bits above `nbits` are 0. The
instruction does not depend on the pc, so any pc serves. -/
def decodeTableWord (nbits w : Nat) : Option Instr :=
  let word : Word := BitVec.ofNat 32 (w % 2 ^ nbits)
  match decodeBytes 0
      [byteOfWord word 0, byteOfWord word 1, byteOfWord word 2, byteOfWord word 3] with
  | .ok (i, _) => some i
  | .error _ => none

end Sys2Proof
end

