-- ==== Sys2Proof/Machine/Memory.lean ====
section
/-! DEFINITION. The memory array (spec/10_state.md R31, spec/20_memory.md) as plain data: a list of
(byte address, byte) cells in one canonical form, and its word accesses, big-endian (R51).
Addresses are numbers; which of them are backed is the business of the checks in Ops.lean. -/

namespace Sys2Proof

/-- The memory, a list of cells. -/
abbrev Memory := List Host.Cell

namespace Memory

/-- What an address with no cell reads as: the memory is zeroed at reset (R33). -/
def unlisted : Byte := 0

/-- The canonical form: addresses strictly rising, no cell equal to what an unlisted address reads as. -/
abbrev wf (m : Memory) : Prop :=
  m.Pairwise (fun c d => c.1 < d.1) ∧ ∀ c ∈ m, c.2 ≠ unlisted

/-- Every cell lies in `[lo, hi)`. -/
abbrev within (m : Memory) (lo hi : Nat) : Prop :=
  ∀ c ∈ m, lo ≤ c.1 ∧ c.1 < hi

/-- The byte at an address. -/
def read : Memory → Nat → Byte
  | [], _ => unlisted
  | (b, w) :: m, a => if a = b then w else read m a

/-- Put `v` in front of the cells above it, unless an unlisted address reads as `v`. -/
def consCell (a : Nat) (v : Byte) (m : Memory) : Memory :=
  if v = unlisted then m else (a, v) :: m

/-- The memory with the byte at `a` replaced; keeps the canonical form. -/
def write : Memory → Nat → Byte → Memory
  | [], a, v => consCell a v []
  | (b, w) :: m, a, v =>
    if a < b then consCell a v ((b, w) :: m)
    else if a = b then consCell a v m
    else (b, w) :: write m a v

/-- The 32-bit word at byte address `a` (R31, R51). -/
def readWord (m : Memory) (a : Nat) : Word :=
  wordOfBytes (m.read a) (m.read (a + 1)) (m.read (a + 2)) (m.read (a + 3))

/-- The memory with the word at byte address `a` replaced (R31, R51). -/
def writeWord (m : Memory) (a : Nat) (w : Word) : Memory :=
  (((m.write a (byteOfWord w 0)).write (a + 1) (byteOfWord w 1)).write (a + 2)
    (byteOfWord w 2)).write (a + 3) (byteOfWord w 3)

/-- The image: word `k` goes to byte address `a + 4*k`
(spec/70_reset_and_hazards.md R252). -/
def loadImage (m : Memory) (a : Nat) : List Word → Memory
  | [] => m
  | w :: ws => loadImage (m.writeWord a w) (a + 4) ws

end Memory

end Sys2Proof
end

