-- ==== Sys2Proof/Machine/Params.lean ====
section
/-! DEFINITION. The spec's default parameter values (spec/00_scope.md R7) and the fixed link
register. -/

namespace Sys2Proof

/-- The defaults of R7: `BASE = 0x00400000`, `NI = 1024`, `ND = 3072`, `SP_INDEX = 29`
(D3, D4, D5; PRESUMED, log entries 1 and 2). -/
def Params.default : Params :=
  { base := 0x00400000, ni := 1024, nd := 3072, spIndex := 29 }

/-- `LINK`: register 31, fixed by the source (R6, R22). -/
def linkReg : RegIdx := 31

end Sys2Proof
end

