-- ==== Sys2Proof/Machine/State.lean ====
section
/-! DEFINITION. The state of the core (spec/10_state.md R20 to R33): thirty-two general registers,
the pc, the memory array and the run state; beside them the parameters the machine was built with
(R7) and the coming levels of its one input, `stop_req` (spec/00_scope.md R9). There is no flag, no
control register, no hidden state (R27, R29, R30). -/

namespace Sys2Proof.Machine

/-- The fault kinds (spec/60_exceptions.md R220), a closed enumeration with no numbers (N23). A fault
has a described entry (R224), so it is TAKEN: it stands in `RunState.haltedFault` of a NEXT state.
No meaning and no step answers `Host.Outcome.fault` with one. -/
inductive Fault where
  /-- Raised by the step when the fetched word is none of the twenty instructions: the word and the
  pc it was fetched from (R221). Safe: the spec's own outcome, which stops the run. -/
  | unsupportedInstruction (word pc : Word)
  /-- Raised by `lw` and `sw` only, when the effective address fails `MemOK`: the pc of the
  instruction and the address (R222). Safe: the spec's own outcome, which stops the run. -/
  | memoryAccessFault (pc ea : Word)
  /-- Raised by the fetch when the pc fails `FetchOK`: the pc (R223, the spec's own fault kind, D8).
  Safe: the model stops where the artefact may read stray memory. -/
  | fetchFault (pc : Word)
  deriving DecidableEq, Repr

/-- Why an instruction has no meaning here. -/
inductive Refusal where
  /-- An arm of `exec` whose instruction has no meaning yet; no arm is left so. Safe. -/
  | notModelled (mnemonic : String)
  deriving DecidableEq, Repr

/-- The run state (R28). -/
inductive RunState where
  | running
  | haltedNormal
  | haltedFault (f : Fault)
  deriving DecidableEq, Repr

/-- The machine state. -/
structure State where
  /-- `x[0]` to `x[31]` (R20); register 0 is ordinary (R21) -/
  regs : Regs
  /-- the program counter: the byte address of the instruction being executed (R24) -/
  pc : Word
  /-- the memory array, as cells in canonical form (R31) -/
  mem : Memory
  /-- the run state (R28) -/
  run : RunState
  /-- The MODEL's own field: the levels `stop_req` has at the coming steps, the next step's first;
  a step of a running core samples one (R195), and past the end the input is not asserted
  (log entry 5). -/
  stopReq : List Bool
  /-- The MODEL's own field: the parameters of this machine (R7); no step writes it (log entry 1). -/
  cfg : Params
  deriving DecidableEq, Repr

/-- The state after reset with an image, of a machine with the given parameters and with the given
coming levels of `stop_req` (R33, R250 to R252). -/
def State.initial (c : Params) (image : List Word) (stops : List Bool) : State :=
  { regs := Regs.set (Vector.replicate 32 0) c.spIndex (BitVec.ofNat 32 c.top)
    pc := BitVec.ofNat 32 c.base
    mem := Memory.loadImage [] c.base image
    run := .running
    stopReq := stops
    cfg := c }

/-- Reset as the host performs it. It has no meaning for parameters outside R7's constraints or for
an image longer than the code segment (R252, D21, U15). It takes no old state: nothing survives
a reset (R250). -/
def State.resetWith (c : Params) (image : List Word) (stops : List Bool) : Option State :=
  if c.wf ∧ c.imageFits image then some (State.initial c image stops) else none

/-- The machine right after reset: the default parameters, the empty image, no stop requested. -/
def State.reset : State := State.initial Params.default [] []

end Sys2Proof.Machine
end

