-- ==== Sys2Proof/Machine/Ops.lean ====
section
/-! DEFINITION. The named operations over registers, pc, memory and run state that every meaning is
written with: the register accessors, the two address checks (spec/20_memory.md R56, R57), the
commit of a step (spec/45_writeback_and_step.md R197) and the taking of a fault
(spec/60_exceptions.md R224). -/

namespace Sys2Proof.Machine

/-! ## Registers -/

/-- `x[r]`; no side effect, never a fault (R193). -/
def State.reg (s : State) (r : RegIdx) : Word := s.regs.get r

/-- `x[r] <- v`; register 0 is stored like any other (R21). -/
def State.setReg (s : State) (r : RegIdx) (v : Word) : State :=
  { s with regs := s.regs.set r v }

/-! ## Address checks -/

/-- The low two bits of an address are zero. -/
def aligned (a : Word) : Bool := a.extractLsb' 0 2 == 0

/-- `MemOK(a)`: aligned and inside the data window, compared unsigned (R53, R55, R56). -/
def memOK (c : Params) (a : Word) : Bool :=
  aligned a && decide (c.dataLo ≤ a.toNat) && decide (a.toNat < c.dataHi)

/-- `FetchOK(p)`: aligned and inside the memory array, code and data alike (R54, R57). -/
def fetchOK (c : Params) (p : Word) : Bool :=
  aligned p && decide (c.base ≤ p.toNat) && decide (p.toNat < c.top)

/-! ## Memory accesses -/

/-- `MemRead(a, 4)`, for an address that passed its check (R13, R56). -/
def State.memWord (s : State) (a : Word) : Word := s.mem.readWord a.toNat

/-- `MemWrite(a, 4, v)`, for an address that passed its check (R13, R56). -/
def State.setMemWord (s : State) (a v : Word) : State :=
  { s with mem := s.mem.writeWord a.toNat v }

/-- The fetched word, or none where the pc fails `FetchOK` (R57, R196). -/
def State.fetch (s : State) : Option Word :=
  if fetchOK s.cfg s.pc then some (s.memWord s.pc) else none

/-! ## The commit -/

/-- All writes of one step, from values computed on the pre-step state (R197): the next pc, at most
one register and at most one memory word. -/
structure Commit where
  nextPC : Word
  reg : Option (RegIdx × Word) := none
  store : Option (Word × Word) := none
  deriving DecidableEq, Repr

/-- The register write of a commit, if it has one. -/
def State.writeReg? (s : State) : Option (RegIdx × Word) → State
  | none => s
  | some (r, v) => s.setReg r v

/-- The memory write of a commit, if it has one. -/
def State.store? (s : State) : Option (Word × Word) → State
  | none => s
  | some (a, v) => s.setMemWord a v

/-- The commit: one atomic state change at the end of the step (R197). -/
def State.commit (s : State) (c : Commit) : State :=
  { (s.writeReg? c.reg).store? c.store with pc := c.nextPC }

/-! ## Faults and stops -/

/-- Fault entry, the one way any fault is taken: `run <- HaltedFault(K, v)` and nothing else changes,
not the pc either (R224). There is no return from a fault: only reset leaves the halted
state (R227). -/
def State.takeFault (s : State) (f : Fault) : State :=
  { s with run := .haltedFault f }

/-- The stop request granted: `run <- HaltedNormal` and nothing else (R195). -/
def State.haltNormal (s : State) : State :=
  { s with run := .haltedNormal }

/-- The level of `stop_req` at this step; not asserted past the end of the list (R195). -/
def State.stopAsserted (s : State) : Bool := s.stopReq.headD false

/-- The state once this step's level of `stop_req` has been sampled (R225: once per step). -/
def State.sampled (s : State) : State :=
  { s with stopReq := s.stopReq.tail }

/-- What the host must arrange for the next step to fetch and run `word`: the core running, the stop
request not asserted at that step, the pc at a fetchable address (moved to `BASE` only if it is
not), the word stored there. -/
def State.placeWord (s : State) (word : Word) : State :=
  let pc := if fetchOK s.cfg s.pc then s.pc else BitVec.ofNat 32 s.cfg.base
  { s with
    pc := pc
    mem := s.mem.writeWord pc.toNat word
    run := .running
    stopReq := if s.stopAsserted then false :: s.stopReq.tail else s.stopReq }

end Sys2Proof.Machine
end

