-- ==== Sys2Proof/Machine/Operands.lean ====
section
/-! DEFINITION. Every operand form and every result the ALU and the address units compute, as pure
functions of values (spec/41_alu_register.md, 42_alu_immediate.md, 43_control_transfer.md,
44_load_store.md). All arithmetic wraps modulo 2^32; nothing overflows, saturates or faults
(R140, D10). -/

namespace Sys2Proof.Machine

/-! ## ALU -/

/-- Sum modulo 2^32 (R131, R151). -/
def aluAdd (a b : Word) : Word := a + b

/-- `a - b` modulo 2^32, the first operand minus the second (R132, G5). -/
def aluSub (a b : Word) : Word := a - b

/-- Bitwise and (R133, R152). -/
def aluAnd (a b : Word) : Word := a &&& b

/-- Bitwise or (R134, R153). -/
def aluOr (a b : Word) : Word := a ||| b

/-- Bitwise exclusive or (R135). -/
def aluXor (a b : Word) : Word := a ^^^ b

/-- Bitwise nor (R136). -/
def aluNor (a b : Word) : Word := ~~~(a ||| b)

/-- Shift left logical by the 5-bit amount, 0 to 31 (R138). -/
def shiftLeft (v : Word) (shamt : BitVec 5) : Word := v <<< shamt.toNat

/-- Shift right logical by the 5-bit amount, 0 to 31: zeros enter at bit 31 (R139). -/
def shiftRight (v : Word) (shamt : BitVec 5) : Word := v >>> shamt.toNat

/-- `imm16 ++ 0x0000`: the zero-extended field shifted left by 16, done in Execute (R88, R154). -/
def upperImmediate (imm32 : Word) : Word := imm32 <<< 16

/-! ## Addresses -/

/-- `pc + 4` modulo 2^32: the default next pc and the `jal` link (R25, R163, R168). -/
def nextSequential (pc : Word) : Word := pc + 4

/-- The branch byte offset `sext_32(imm16) << 2` (R87). -/
def branchOffset (imm32 : Word) : Word := imm32 <<< 2

/-- The branch target `pc + 4 + off`, relative to the instruction after the branch (R161). -/
def branchTarget (pc offset : Word) : Word := nextSequential pc + offset

/-- The effective address `x[rs] + sext_32(imm16)`, in bytes and not scaled, the same formula for
loads and stores (R181). -/
def effectiveAddress (base imm32 : Word) : Word := base + imm32

/-- The effective address of the `lw` or `sw` with these fields in a state (R181). -/
def State.ea (s : State) (rs : RegIdx) (imm16 : BitVec 16) : Word :=
  effectiveAddress (s.reg rs) (sext32 imm16)

end Sys2Proof.Machine
end

