-- ==== Sys2Proof/Machine/Flags.lean ====
section
/-! DEFINITION. The core has no flags, condition codes or predicate registers
(spec/10_state.md R27), so there is no flag to compute. What stands here are the conditions an
instruction evaluates on the spot: the signed comparison of `slt` (R137) and the branch-condition
evaluation (spec/43_control_transfer.md R162). -/

namespace Sys2Proof.Machine

/-- The 32-bit 0 or 1 of `slt`: a comparison of the two signed numbers, not of the sign of their
difference (R137). -/
def setLessThan (a b : Word) : Word := if a.toInt < b.toInt then 1 else 0

/-- The branch condition of `beq`: all 32 bits equal (R162, R165). -/
def branchEqual (a b : Word) : Bool := a == b

/-- The branch condition of `bne` (R162, R166). -/
def branchNotEqual (a b : Word) : Bool := a != b

end Sys2Proof.Machine
end

