-- ==== Sys2Proof/Machine/Blocks.lean ====
section
/-! DEFINITION. The sub-blocks with the contracts the spec gives them (spec/00_scope.md R8): Formatter,
Executor, PC Updater, Memory Access Unit, Register Writeback. Each is a pure function of the
decoded instruction and the snapshot at the start of the step. The Decoder is `decode` in
Decode.lean; the Driver that orders them is `blockStep` in Cycle.lean. The per-instruction
meanings do not call these blocks: that both give the same machine is a claim. -/

namespace Sys2Proof.Machine

/-! ## Instruction Formatter (spec/46_formatter.md) -/

/-- The mnemonic, the name of the operation; none for `unsupported` (R211). -/
def mnemonicOf : Op → Option String
  | .addu => some "addu"
  | .subu => some "subu"
  | .and => some "and"
  | .or => some "or"
  | .xor => some "xor"
  | .nor => some "nor"
  | .slt => some "slt"
  | .sll => some "sll"
  | .srl => some "srl"
  | .jr => some "jr"
  | .addiu => some "addiu"
  | .andi => some "andi"
  | .ori => some "ori"
  | .lui => some "lui"
  | .beq => some "beq"
  | .bne => some "bne"
  | .lw => some "lw"
  | .sw => some "sw"
  | .j => some "j"
  | .jal => some "jal"
  | .unsupported => none

/-- The printed operands of the four classes the source describes; none where it gives no operand
order (R212). A branch shows its resolved target whether or not it is taken. -/
def formatOperands (d : Decoded) (pc : Word) : Option (List TextOperand) :=
  match d with
  | .r _ _ _ rd shamt _ op =>
    match op with
    | .sll | .srl => some [.reg rd, .rsAsImplicitZero, .shamt shamt]
    | _ => none
  | .i _ rs rt _ imm32 op =>
    match op with
    | .beq | .bne => some [.reg rs, .reg rt, .target (branchTarget pc (branchOffset imm32))]
    | .lw | .sw => some [.reg rt, .offsetBase imm32 rs]
    | _ => none
  | .j _ _ target _ => some [.target target]

/-- `format(d, pc)`: the text, or none where the word is unsupported, which is the
UnsupportedInstruction condition (R210, R213). -/
def format (d : Decoded) (pc : Word) : Option String :=
  match mnemonicOf d.op with
  | some _ => some (Config.formatText d pc (formatOperands d pc))
  | none => none

/-! ## Executor -/

/-- What the Executor returns (R201): the ComputedValue, the branch condition, the link value. -/
structure ExecResult where
  value : Word
  taken : Bool := false
  link : Word
  deriving DecidableEq, Repr

/-- `execute(d, registers)`; none for an unsupported operation (R213). It also takes the pc, from
which the link is computed in Execute (spec/90_conflicts.md C6). The value is an ALU result, an
effective address, a branch byte offset or a jump target, by instruction (R14). -/
def execute (d : Decoded) (pc : Word) (x : Regs) : Option ExecResult :=
  let link := nextSequential pc
  match d with
  | .r _ rs rt _ shamt _ op =>
    match op with
    | .addu => some { value := aluAdd (x.get rs) (x.get rt), link }
    | .subu => some { value := aluSub (x.get rs) (x.get rt), link }
    | .and => some { value := aluAnd (x.get rs) (x.get rt), link }
    | .or => some { value := aluOr (x.get rs) (x.get rt), link }
    | .xor => some { value := aluXor (x.get rs) (x.get rt), link }
    | .nor => some { value := aluNor (x.get rs) (x.get rt), link }
    | .slt => some { value := setLessThan (x.get rs) (x.get rt), link }
    | .sll => some { value := shiftLeft (x.get rt) shamt, link }
    | .srl => some { value := shiftRight (x.get rt) shamt, link }
    | .jr => some { value := x.get rs, link }
    | .addiu | .andi | .ori | .lui | .beq | .bne | .lw | .sw | .j | .jal | .unsupported => none
  | .i _ rs rt _ imm32 op =>
    match op with
    | .addiu => some { value := aluAdd (x.get rs) imm32, link }
    | .andi => some { value := aluAnd (x.get rs) imm32, link }
    | .ori => some { value := aluOr (x.get rs) imm32, link }
    | .lui => some { value := upperImmediate imm32, link }
    | .beq => some { value := branchOffset imm32, taken := branchEqual (x.get rs) (x.get rt), link }
    | .bne => some { value := branchOffset imm32, taken := branchNotEqual (x.get rs) (x.get rt), link }
    | .lw | .sw => some { value := effectiveAddress (x.get rs) imm32, link }
    | .addu | .subu | .and | .or | .xor | .nor | .slt | .sll | .srl | .jr | .j | .jal
    | .unsupported => none
  | .j _ _ target op =>
    match op with
    | .j | .jal => some { value := target, link }
    | .addu | .subu | .and | .or | .xor | .nor | .slt | .sll | .srl | .jr | .addiu | .andi | .ori
    | .lui | .beq | .bne | .lw | .sw | .unsupported => none

/-! ## PC Updater -/

/-- `nextPC(d, computedValue, branchTaken)`, which also reads the current pc (R160). -/
def nextPC (d : Decoded) (pc value : Word) (taken : Bool) : Word :=
  match d.op with
  | .j | .jal | .jr => value
  | .beq | .bne => if taken then branchTarget pc value else nextSequential pc
  | .addu | .subu | .and | .or | .xor | .nor | .slt | .sll | .srl | .addiu | .andi | .ori | .lui
  | .lw | .sw | .unsupported => nextSequential pc

/-! ## Memory Access Unit -/

/-- What the Memory Access Unit returns (R180): the loaded value and the changed address. -/
structure AccessResult where
  loaded : Option Word := none
  changed : Option Word := none
  deriving DecidableEq, Repr

/-- `access(d, computedAddress)`, which also reads the memory array; none is the memory access
exception (R56). Only `lw` and `sw` touch memory (R52, R180). -/
def access (d : Decoded) (c : Params) (m : Memory) (ea : Word) : Option AccessResult :=
  match d.op with
  | .lw => if memOK c ea then some { loaded := some (m.readWord ea.toNat) } else none
  | .sw => if memOK c ea then some { changed := some ea } else none
  | .addu | .subu | .and | .or | .xor | .nor | .slt | .sll | .srl | .jr | .addiu | .andi | .ori
  | .lui | .beq | .bne | .j | .jal | .unsupported => some {}

/-! ## Register Writeback -/

/-- Write enable and destination select: `writeback(d, computedValue)`'s changed register, from the
decoded instruction alone (R191, R192). -/
def writebackReg (d : Decoded) : Option RegIdx :=
  match d with
  | .r _ _ _ rd _ _ op =>
    match op with
    | .addu | .subu | .and | .or | .xor | .nor | .slt | .sll | .srl => some rd
    | .jr | .addiu | .andi | .ori | .lui | .beq | .bne | .lw | .sw | .j | .jal
    | .unsupported => none
  | .i _ _ rt _ _ op =>
    match op with
    | .addiu | .andi | .ori | .lui | .lw => some rt
    | .addu | .subu | .and | .or | .xor | .nor | .slt | .sll | .srl | .jr | .beq | .bne | .sw | .j
    | .jal | .unsupported => none
  | .j _ _ _ op =>
    match op with
    | .jal => some linkReg
    | .addu | .subu | .and | .or | .xor | .nor | .slt | .sll | .srl | .jr | .addiu | .andi | .ori
    | .lui | .beq | .bne | .lw | .sw | .j | .unsupported => none

/-- Write-data select: the loaded word if the Memory Access Unit returned one, the link for `jal`,
else the ComputedValue (R191). -/
def writeData (d : Decoded) (r : ExecResult) (loaded : Option Word) : Word :=
  match loaded with
  | some v => v
  | none => if d.op = .jal then r.link else r.value

/-- The store of the commit: the changed address the Memory Access Unit returned and the value of
`x[rt]` (R183, R197). Only an I-format record can be a store. -/
def storeOf (d : Decoded) (m : AccessResult) (x : Regs) : Option (Word × Word) :=
  match d, m.changed with
  | .i _ _ rt _ _ _, some ea => some (ea, x.get rt)
  | .i _ _ _ _ _ _, none => none
  | .r _ _ _ _ _ _ _, _ => none
  | .j _ _ _ _, _ => none

end Sys2Proof.Machine
end

