-- ==== Sys2Proof/Machine/AluRegister.lean ====
section
/-! DEFINITION. The nine register-register ALU instructions (spec/41_alu_register.md R130 to R139).
Each reads its sources before the write (R200), writes `rd`, advances the pc by 4 and can raise
no fault. -/

namespace Sys2Proof.Machine

/-- The commit all of them make: `rd` receives the result and the pc advances (R130). -/
def State.commitResult (s : State) (dest : RegIdx) (v : Word) : State :=
  s.commit { nextPC := nextSequential s.pc, reg := some (dest, v) }

/-- `addu` (R131). -/
def execAddu (rs rt rd : RegIdx) (s : State) : Host.Outcome State Fault Refusal :=
  .next (s.commitResult rd (aluAdd (s.reg rs) (s.reg rt)))

/-- `subu` (R132). -/
def execSubu (rs rt rd : RegIdx) (s : State) : Host.Outcome State Fault Refusal :=
  .next (s.commitResult rd (aluSub (s.reg rs) (s.reg rt)))

/-- `and` (R133). -/
def execAnd (rs rt rd : RegIdx) (s : State) : Host.Outcome State Fault Refusal :=
  .next (s.commitResult rd (aluAnd (s.reg rs) (s.reg rt)))

/-- `or` (R134). -/
def execOr (rs rt rd : RegIdx) (s : State) : Host.Outcome State Fault Refusal :=
  .next (s.commitResult rd (aluOr (s.reg rs) (s.reg rt)))

/-- `xor` (R135). -/
def execXor (rs rt rd : RegIdx) (s : State) : Host.Outcome State Fault Refusal :=
  .next (s.commitResult rd (aluXor (s.reg rs) (s.reg rt)))

/-- `nor` (R136). -/
def execNor (rs rt rd : RegIdx) (s : State) : Host.Outcome State Fault Refusal :=
  .next (s.commitResult rd (aluNor (s.reg rs) (s.reg rt)))

/-- `slt` (R137). -/
def execSlt (rs rt rd : RegIdx) (s : State) : Host.Outcome State Fault Refusal :=
  .next (s.commitResult rd (setLessThan (s.reg rs) (s.reg rt)))

/-- `sll`: the operand is `rt`, `rs` is ignored (R138). -/
def execSll (rt rd : RegIdx) (shamt : BitVec 5) (s : State) : Host.Outcome State Fault Refusal :=
  .next (s.commitResult rd (shiftLeft (s.reg rt) shamt))

/-- `srl`: the operand is `rt`, `rs` is ignored (R139). -/
def execSrl (rt rd : RegIdx) (shamt : BitVec 5) (s : State) : Host.Outcome State Fault Refusal :=
  .next (s.commitResult rd (shiftRight (s.reg rt) shamt))

end Sys2Proof.Machine
end

