-- ==== Sys2Proof/Machine/AluImmediate.lean ====
section
/-! DEFINITION. The four register-immediate ALU instructions (spec/42_alu_immediate.md R150 to R154).
Each writes `rt`, advances the pc by 4 and can raise no fault. -/

namespace Sys2Proof.Machine

/-- `addiu`: the immediate is sign-extended (R151). -/
def execAddiu (rs rt : RegIdx) (imm16 : BitVec 16) (s : State) : Host.Outcome State Fault Refusal :=
  .next (s.commitResult rt (aluAdd (s.reg rs) (sext32 imm16)))

/-- `andi`: the immediate is zero-extended (R152). -/
def execAndi (rs rt : RegIdx) (imm16 : BitVec 16) (s : State) : Host.Outcome State Fault Refusal :=
  .next (s.commitResult rt (aluAnd (s.reg rs) (zext32 imm16)))

/-- `ori`: the immediate is zero-extended (R153). -/
def execOri (rs rt : RegIdx) (imm16 : BitVec 16) (s : State) : Host.Outcome State Fault Refusal :=
  .next (s.commitResult rt (aluOr (s.reg rs) (zext32 imm16)))

/-- `lui`: no register is read, `rs` is ignored (R154). -/
def execLui (rt : RegIdx) (imm16 : BitVec 16) (s : State) : Host.Outcome State Fault Refusal :=
  .next (s.commitResult rt (upperImmediate (zext32 imm16)))

end Sys2Proof.Machine
end

