-- ==== Sys2Proof/Machine/ControlTransfer.lean ====
section
/-! DEFINITION. The five instructions that redirect the pc (spec/43_control_transfer.md R160 to R169).
No delay slot (R163). None checks its target: the instruction completes and the next fetch
decides (R164). -/

namespace Sys2Proof.Machine

/-- The commit of a conditional branch: `pc + 4 + off` if taken, whatever the sign of the offset, else
`pc + 4` (R160 to R162). -/
def State.commitBranch (s : State) (taken : Bool) (imm16 : BitVec 16) : State :=
  s.commit
    { nextPC := if taken then branchTarget s.pc (branchOffset (sext32 imm16))
                else nextSequential s.pc }

/-- `beq` (R165). -/
def execBeq (rs rt : RegIdx) (imm16 : BitVec 16) (s : State) : Host.Outcome State Fault Refusal :=
  .next (s.commitBranch (branchEqual (s.reg rs) (s.reg rt)) imm16)

/-- `bne` (R166). -/
def execBne (rs rt : RegIdx) (imm16 : BitVec 16) (s : State) : Host.Outcome State Fault Refusal :=
  .next (s.commitBranch (branchNotEqual (s.reg rs) (s.reg rt)) imm16)

/-- `j` (R167). -/
def execJ (target26 : BitVec 26) (s : State) : Host.Outcome State Fault Refusal :=
  .next (s.commit { nextPC := jumpTarget s.pc target26 })

/-- `jal`: the link is `pc + 4` of the `jal` itself (R168). -/
def execJal (target26 : BitVec 26) (s : State) : Host.Outcome State Fault Refusal :=
  .next (s.commit
    { nextPC := jumpTarget s.pc target26, reg := some (linkReg, nextSequential s.pc) })

/-- `jr`: the register the instruction names (R169, D7). -/
def execJr (rs : RegIdx) (s : State) : Host.Outcome State Fault Refusal :=
  .next (s.commit { nextPC := s.reg rs })

end Sys2Proof.Machine
end

