-- ==== Sys2Proof/Machine/LoadStore.lean ====
section
/-! DEFINITION. The two instructions that touch memory (spec/44_load_store.md R180 to R183). An address
that fails `MemOK` takes MemoryAccessFault (R222): a next state whose only change is the run
state (R224). -/

namespace Sys2Proof.Machine

/-- `lw` (R182). -/
def execLw (rs rt : RegIdx) (imm16 : BitVec 16) (s : State) : Host.Outcome State Fault Refusal :=
  let ea := s.ea rs imm16
  if memOK s.cfg ea then .next (s.commitResult rt (s.memWord ea))
  else .next (s.takeFault (.memoryAccessFault s.pc ea))

/-- `sw`: the source register is `rt`, no register is written (R183). -/
def execSw (rs rt : RegIdx) (imm16 : BitVec 16) (s : State) : Host.Outcome State Fault Refusal :=
  let ea := s.ea rs imm16
  if memOK s.cfg ea then
    .next (s.commit { nextPC := nextSequential s.pc, store := some (ea, s.reg rt) })
  else .next (s.takeFault (.memoryAccessFault s.pc ea))

end Sys2Proof.Machine
end

