-- ==== Sys2Proof/Machine/Dispatch.lean ====
section
/-! DEFINITION. The meaning of every instruction, one arm each; a field that an arm does not pass on
is one the instruction ignores (spec/30_encoding.md R92). -/

namespace Sys2Proof.Machine

def exec (i : Instr) (s : State) : Host.Outcome State Fault Refusal :=
  match i with
  | .sll _ rt rd shamt => Sys2Proof.Machine.execSll rt rd shamt s
  | .srl _ rt rd shamt => Sys2Proof.Machine.execSrl rt rd shamt s
  | .jr rs _ _ _ => Sys2Proof.Machine.execJr rs s
  | .addu rs rt rd _ => Sys2Proof.Machine.execAddu rs rt rd s
  | .subu rs rt rd _ => Sys2Proof.Machine.execSubu rs rt rd s
  | .and rs rt rd _ => Sys2Proof.Machine.execAnd rs rt rd s
  | .or rs rt rd _ => Sys2Proof.Machine.execOr rs rt rd s
  | .xor rs rt rd _ => Sys2Proof.Machine.execXor rs rt rd s
  | .nor rs rt rd _ => Sys2Proof.Machine.execNor rs rt rd s
  | .slt rs rt rd _ => Sys2Proof.Machine.execSlt rs rt rd s
  | .j target26 => Sys2Proof.Machine.execJ target26 s
  | .jal target26 => Sys2Proof.Machine.execJal target26 s
  | .beq rs rt imm16 => Sys2Proof.Machine.execBeq rs rt imm16 s
  | .bne rs rt imm16 => Sys2Proof.Machine.execBne rs rt imm16 s
  | .addiu rs rt imm16 => Sys2Proof.Machine.execAddiu rs rt imm16 s
  | .andi rs rt imm16 => Sys2Proof.Machine.execAndi rs rt imm16 s
  | .ori rs rt imm16 => Sys2Proof.Machine.execOri rs rt imm16 s
  | .lui _ rt imm16 => Sys2Proof.Machine.execLui rt imm16 s
  | .lw rs rt imm16 => Sys2Proof.Machine.execLw rs rt imm16 s
  | .sw rs rt imm16 => Sys2Proof.Machine.execSw rs rt imm16 s

end Sys2Proof.Machine
end

