-- ==== Sys2Proof/Machine/Cycle.lean ====
section
/-! DEFINITION. One step of the core (spec/45_writeback_and_step.md R194 to R201), in the two forms the
spec gives it: `runningStep` and `cycle` run the meaning of the decoded instruction, and
`blockStep` composes the sub-blocks as R201 does and also returns the step's output (R198). -/

namespace Sys2Proof.Machine

/-- The step of a running core, with this step's level of the stop request (R201), in the order stop,
fetch, decode, then the instruction (R226). -/
def runningStep (stopReq : Bool) (s : State) : Host.Outcome State Fault Refusal :=
  if stopReq then .next s.haltNormal
  else
    match s.fetch with
    | none => .next (s.takeFault (.fetchFault s.pc))
    | some word =>
      match decodeInstr word s.pc with
      | .error _ => .next (s.takeFault (.unsupportedInstruction word s.pc))
      | .ok i => exec i s

/-- The gate on the run state: a step is taken only when running; a halted core keeps its state
(R199). A running core samples one level of the stop request (R195). -/
def cycle (s : State) : Host.Outcome State Fault Refusal :=
  match s.run with
  | .running => runningStep s.stopAsserted s.sampled
  | .haltedNormal => .next s
  | .haltedFault _ => .next s

/-! ## The block-level step and its output -/

/-- The per-step output tuple (R9, R198): an output, not state. -/
structure Output where
  text : Option String
  newPC : Word
  changedReg : Option RegIdx
  changedMem : Option Word
  fault : Option Fault
  deriving DecidableEq, Repr

/-- The output of a step that ends without a commit: the unchanged pc and no change (R198, R224). -/
def Output.unchanged (pc : Word) (text : Option String) (fault : Option Fault) : Output :=
  { text, newPC := pc, changedReg := none, changedMem := none, fault }

/-- The whole step as R201 composes it from the blocks, with its output. -/
def blockStep (stopReq : Bool) (s : State) : State × Output :=
  if stopReq then (s.haltNormal, .unchanged s.pc none none)
  else
    match s.fetch with
    | none =>
      let f := .fetchFault s.pc
      (s.takeFault f, .unchanged s.pc none (some f))
    | some word =>
      let d := decode word s.pc
      match format d s.pc, execute d s.pc s.regs with
      | some text, some r =>
        match access d s.cfg s.mem r.value with
        | none =>
          let f := .memoryAccessFault s.pc r.value
          (s.takeFault f, .unchanged s.pc (some text) (some f))
        | some m =>
          let next := nextPC d s.pc r.value r.taken
          let reg := (writebackReg d).map fun dest => (dest, writeData d r m.loaded)
          (s.commit { nextPC := next, reg, store := storeOf d m s.regs },
            { text := some text, newPC := next, changedReg := writebackReg d,
              changedMem := m.changed, fault := none })
      | _, _ =>
        let f := .unsupportedInstruction word s.pc
        (s.takeFault f, .unchanged s.pc none (some f))

/-- The state a block-level cycle ends in: the gate of R199 around `blockStep`. -/
def blockCycle (s : State) : State :=
  match s.run with
  | .running => (blockStep s.stopAsserted s.sampled).1
  | .haltedNormal => s
  | .haltedFault _ => s

/-- The output of the step a state takes; none where it takes no step (R198, R199). -/
def stepOutput (s : State) : Option Output :=
  match s.run with
  | .running => some (blockStep s.stopAsserted s.sampled).2
  | .haltedNormal => none
  | .haltedFault _ => none

end Sys2Proof.Machine
end

