-- ==== Sys2Proof/Machine/Step.lean ====
section
/-! DEFINITION. The step function the host runs, and the placing of an instruction word where the
next step fetches it. -/

namespace Sys2Proof.Machine

/-- One step: `cycle` of Cycle.lean (R199, R201). It always answers a next state (R256). -/
def step (s : State) : Host.Outcome State Fault Refusal := cycle s

/-- `s` with the low `nbits` bits of `w` stored as the word the very next step fetches and runs. -/
def State.withFetchWord (s : State) (nbits w : Nat) : State :=
  s.placeWord (BitVec.ofNat 32 (w % 2 ^ nbits))

end Sys2Proof.Machine
end

