-- ==== Sys2Proof/Safety.lean ====
section
/-! DEFINITION. The terms claims are made in: what a step leaves unchanged, the invariant of the
machine, the truth of a recorded fault, and what counts as a safe run (one that takes no fault). -/

namespace Sys2Proof.Machine

/-! ## Frames -/

/-- Every byte of memory reads as before. -/
def SameMemory (s t : State) : Prop := ∀ a, t.mem.read a = s.mem.read a

/-- Every byte of memory reads as before but those of the word at `a`, which is now `w`. -/
def StoresOnly (s t : State) (a : Nat) (w : Word) : Prop :=
  t.mem.readWord a = w ∧ ∀ b, ¬ (a ≤ b ∧ b < a + 4) → t.mem.read b = s.mem.read b

/-- Every register is as before. -/
def SameRegs (s t : State) : Prop := ∀ r, t.reg r = s.reg r

/-- Register `d` holds `v` and every other register is as before. -/
def WritesOnly (s t : State) (d : RegIdx) (v : Word) : Prop :=
  t.reg d = v ∧ ∀ r, r ≠ d → t.reg r = s.reg r

/-- The run state, the parameters and the coming levels of `stop_req` are as before: all the state
beside registers, pc and memory. -/
def SameControl (s t : State) : Prop :=
  t.run = s.run ∧ t.cfg = s.cfg ∧ t.stopReq = s.stopReq

/-- What an instruction that only computes into a register does (R130, R150): the destination, the next
pc `pc + 4`, and nothing else. -/
def ComputesInto (s t : State) (d : RegIdx) (v : Word) : Prop :=
  WritesOnly s t d v ∧ t.pc = s.pc + 4 ∧ SameMemory s t ∧ SameControl s t

/-- What an instruction that only moves the pc does. -/
def OnlyMovesPc (s t : State) (target : Word) : Prop :=
  t.pc = target ∧ SameRegs s t ∧ SameMemory s t ∧ SameControl s t

/-- What a fault does (R224): the run state records it and nothing else changes. -/
def TakesFault (s t : State) (f : Fault) : Prop :=
  t.run = .haltedFault f ∧ t.pc = s.pc ∧ SameRegs s t ∧ SameMemory s t ∧
    t.cfg = s.cfg ∧ t.stopReq = s.stopReq

/-- What a running core puts out when it runs the instruction `i` without a fault (R192, R198): the new
pc of the state the instruction leads to, the register and the address reported as changed. -/
def Reports (s : State) (i : Instr) (reg : Option RegIdx) (mem : Option Word) : Prop :=
  s.run = .running → s.stopAsserted = false → s.fetch = some (encode i) →
    ∃ t o, exec i s = .next t ∧ stepOutput s = some o ∧ o.newPC = t.pc ∧
      o.changedReg = reg ∧ o.changedMem = mem ∧ o.fault = none

/-! ## Invariants -/

/-- The invariant of the machine: the parameters meet R7's constraints, memory is in canonical form,
and no cell lies outside the memory array (R50). -/
def State.Inv (s : State) : Prop :=
  s.cfg.wf ∧ s.mem.wf ∧ s.mem.within s.cfg.base s.cfg.top

/-- The record of a fault is true of the state that holds it (R221 to R224): the recorded pc is the pc,
and the recorded cause still holds of the word at that pc. -/
def State.FaultRecordTrue (s : State) : Prop :=
  match s.run with
  | .running => True
  | .haltedNormal => True
  | .haltedFault (.fetchFault p) => p = s.pc ∧ s.fetch = none
  | .haltedFault (.unsupportedInstruction w p) =>
      p = s.pc ∧ s.fetch = some w ∧ ∀ i, decodeInstr w p ≠ .ok i
  | .haltedFault (.memoryAccessFault p ea) =>
      p = s.pc ∧ memOK s.cfg ea = false ∧
        ∃ w rs rt imm16, s.fetch = some w ∧ ea = s.reg rs + sext32 imm16 ∧
          (decodeInstr w p = .ok (.lw rs rt imm16) ∨ decodeInstr w p = .ok (.sw rs rt imm16))

/-! ## Safe runs -/

/-- The state is not halted by a fault. -/
def State.NoFault (s : State) : Prop := ∀ f, s.run ≠ .haltedFault f

/-- A run of `n` steps is safe if it ends in a state not halted by a fault; since halted states are
absorbing (R199), no step of it took one. -/
def SafeRun (n : Nat) (s : State) : Prop :=
  ∃ t : State, Sys2Proof.core.run n s = .next t ∧ t.NoFault

end Sys2Proof.Machine
end

