-- ==== Sys2Proof/Certificates/Slice0/Obligations.lean ====
section
/-! DEFINITION. The statements about the machine, one `def Obligations.<Name> : Prop` each. Each
docstring's rule numbers are those of spec/; the frame predicates are in Safety.lean. -/

open Sys2Proof Sys2Proof.Machine

/-! ## Encoding and decoding -/

/-- Sample words of spec/95_test_vectors.md V1 to V7 decode to the instructions they stand for, one of
every family at least, and two unsupported words are rejected (selector numbers: D1, G1; PRESUMED,
log entry 3). -/
def Obligations.SampleWordsDecodeAsTheSpecEncodesThem : Prop :=
  decodeInstr 0x00221821 0 = .ok (.addu 1 2 3 0) ∧
  decodeInstr 0x00042F02 0 = .ok (.srl 0 4 5 28) ∧
  decodeInstr 0x2529FFFF 0 = .ok (.addiu 9 9 0xFFFF) ∧
  decodeInstr 0x3C080040 0 = .ok (.lui 0 8 0x0040) ∧
  decodeInstr 0x1520FFFA 0 = .ok (.bne 9 0 0xFFFA) ∧
  decodeInstr 0x0C100004 0 = .ok (.jal 0x0100004) ∧
  decodeInstr 0x03E00008 0 = .ok (.jr 31 0 0 0) ∧
  decodeInstr 0x8FA3FFFC 0 = .ok (.lw 29 3 0xFFFC) ∧
  decodeInstr 0xAFA2FFFC 0 = .ok (.sw 29 2 0xFFFC) ∧
  decodeInstr 0x00000020 0 = .error (.unsupportedWord 0x00000020) ∧
  decodeInstr 0x20010001 0 = .error (.unsupportedWord 0x20010001)

/-- The assembly formulas of R81 to R83, as numbers: each field stands at its place; and the code that
stands in the selector field, by operation (R90, R91). All codes but 0x21 are the spec's own choice
from general knowledge (D1, G1; PRESUMED, log entry 3). -/
def Obligations.AssembledWordsPlaceEachField : Prop :=
  (∀ (opcode : BitVec 6) (rs rt rd : RegIdx) (shamt : BitVec 5) (funct : BitVec 6),
    (assembleR opcode rs rt rd shamt funct).toNat =
      opcode.toNat * 2 ^ 26 + rs.toNat * 2 ^ 21 + rt.toNat * 2 ^ 16 + rd.toNat * 2 ^ 11 +
        shamt.toNat * 2 ^ 6 + funct.toNat) ∧
  (∀ (opcode : BitVec 6) (rs rt : RegIdx) (imm16 : BitVec 16),
    (assembleI opcode rs rt imm16).toNat =
      opcode.toNat * 2 ^ 26 + rs.toNat * 2 ^ 21 + rt.toNat * 2 ^ 16 + imm16.toNat) ∧
  (∀ (opcode : BitVec 6) (target26 : BitVec 26),
    (assembleJ opcode target26).toNat = opcode.toNat * 2 ^ 26 + target26.toNat) ∧
  (codeOf .sll = 0x00 ∧ codeOf .srl = 0x02 ∧ codeOf .jr = 0x08 ∧ codeOf .addu = 0x21 ∧
    codeOf .subu = 0x23 ∧ codeOf .and = 0x24 ∧ codeOf .or = 0x25 ∧ codeOf .xor = 0x26 ∧
    codeOf .nor = 0x27 ∧ codeOf .slt = 0x2A) ∧
  (codeOf .j = 0x02 ∧ codeOf .jal = 0x03 ∧ codeOf .beq = 0x04 ∧ codeOf .bne = 0x05 ∧
    codeOf .addiu = 0x09 ∧ codeOf .andi = 0x0C ∧ codeOf .ori = 0x0D ∧ codeOf .lui = 0x0F ∧
    codeOf .lw = 0x23 ∧ codeOf .sw = 0x2B)

/-- R120, which the spec marks as derived from R111 to R115: encoding is the inverse of extraction on the
fields a format has, both ways; no bit of a word is dropped and none is read twice. That the J-format
opcodes are 0x02 and 0x03 is the spec's own choice (G1; PRESUMED, log entry 3). -/
def Obligations.RawFieldsRoundTrip : Prop :=
  (∀ (rs rt rd : RegIdx) (shamt : BitVec 5) (funct : BitVec 6) (pc : Word),
    decode (assembleR 0 rs rt rd shamt funct) pc =
      .r 0 rs rt rd shamt funct (lookupOp .r funct)) ∧
  (∀ (opcode : BitVec 6) (rs rt : RegIdx) (imm16 : BitVec 16) (pc : Word),
    opcode ≠ 0x00 → opcode ≠ 0x02 → opcode ≠ 0x03 →
    decode (assembleI opcode rs rt imm16) pc =
      .i opcode rs rt imm16 (widen (lookupOp .i opcode) imm16) (lookupOp .i opcode)) ∧
  (∀ (opcode : BitVec 6) (target26 : BitVec 26) (pc : Word),
    opcode = 0x02 ∨ opcode = 0x03 →
    decode (assembleJ opcode target26) pc =
      .j opcode target26 (jumpTarget pc target26) (lookupOp .j opcode)) ∧
  (∀ word pc : Word, (decode word pc).word = word)

/-- Decoding the word of an instruction gives the instruction back, every operand at every value the
encoding admits, the ignored fields too, at every pc. -/
def Obligations.DecodingInvertsEncoding : Prop :=
  ∀ (i : Instr) (pc : Word), decodeInstr (encode i) pc = .ok i

/-- A word that decodes to an instruction is the word of that instruction: one word has one meaning. -/
def Obligations.EncodingInvertsDecoding : Prop :=
  ∀ (word pc : Word) (i : Instr), decodeInstr word pc = .ok i → encode i = word

/-- R84: the format is a function of the opcode alone: R for 0, J for the codes of `j` and `jal`, I for
every other. That those two are 2 and 3 is the spec's own choice (G1; PRESUMED, log entry 3). -/
def Obligations.FormatIsClassifiedByTheOpcode : Prop :=
  ∀ word pc : Word,
    ((decode word pc).format = .r ↔ word.toNat / 2 ^ 26 = 0x00) ∧
    ((decode word pc).format = .j ↔ word.toNat / 2 ^ 26 = 0x02 ∨ word.toNat / 2 ^ 26 = 0x03) ∧
    ((decode word pc).format = .i ↔
      word.toNat / 2 ^ 26 ≠ 0x00 ∧ word.toNat / 2 ^ 26 ≠ 0x02 ∧ word.toNat / 2 ^ 26 ≠ 0x03)

/-- R93: the words that decode to an instruction are exactly those that match a row of the opcode
table under its mask (ten functs under opcode 0, ten opcodes); every other word is rejected. The
numbers are the spec's own choice (D1, G1; PRESUMED, log entry 3), the masks follow D11. -/
def Obligations.SupportedWordsAreExactlyTheTableRows : Prop :=
  ∀ word pc : Word,
    ((∃ i, decodeInstr word pc = .ok i) ↔
      word &&& 0xFC00003F ∈ ([0x00000000, 0x00000002, 0x00000008, 0x00000021, 0x00000023,
        0x00000024, 0x00000025, 0x00000026, 0x00000027, 0x0000002A] : List Word) ∨
      word &&& 0xFC000000 ∈ ([0x08000000, 0x0C000000, 0x10000000, 0x14000000, 0x24000000,
        0x30000000, 0x34000000, 0x3C000000, 0x8C000000, 0xAC000000] : List Word)) ∧
    ((¬ ∃ i, decodeInstr word pc = .ok i) ↔
      decodeInstr word pc = .error (.unsupportedWord word))

/-- R85: the 16-bit immediate is widened by zeros for `andi`, `ori`, `lui` and by its sign for every
other I-format opcode; for the unsupported ones that is the spec's own choice (D12), as are the three
opcode numbers (G1; PRESUMED, log entry 3). -/
def Obligations.ImmediateWideningFollowsTheOpcode : Prop :=
  ∀ (word pc : Word) (opcode : BitVec 6) (rs rt : RegIdx) (imm16 : BitVec 16) (imm32 : Word)
    (op : Op), decode word pc = .i opcode rs rt imm16 imm32 op →
    imm16.toNat = word.toNat % 2 ^ 16 ∧
    (opcode = 0x0C ∨ opcode = 0x0D ∨ opcode = 0x0F → imm32.toNat = imm16.toNat) ∧
    (opcode ≠ 0x0C → opcode ≠ 0x0D → opcode ≠ 0x0F →
      imm32.toInt = if imm16.toNat < 32768 then (imm16.toNat : Int) else imm16.toNat - 65536)

/-- R86: the J-format target is the top four bits of `pc + 4`, the 26-bit field and two zero bits; it
is a multiple of 4. -/
def Obligations.JumpTargetJoinsTopBitsAndField : Prop :=
  ∀ (word pc : Word) (opcode : BitVec 6) (target26 : BitVec 26) (target : Word) (op : Op),
    decode word pc = .j opcode target26 target op →
    target26.toNat = word.toNat % 2 ^ 26 ∧
    target.toNat = ((pc.toNat + 4) % 2 ^ 32) / 2 ^ 28 * 2 ^ 28 + target26.toNat * 4 ∧
    target.toNat % 4 = 0

/-- R92, the fields an instruction does not use: whatever they hold, the instruction does the same
(the spec's own choice, D11). -/
def Obligations.IgnoredFieldsDoNotChangeTheResult : Prop :=
  ∀ (s : State) (rs rt rd rs' rt' rd' : RegIdx) (shamt shamt' : BitVec 5) (imm16 : BitVec 16),
    exec (.sll rs rt rd shamt) s = exec (.sll rs' rt rd shamt) s ∧
    exec (.srl rs rt rd shamt) s = exec (.srl rs' rt rd shamt) s ∧
    exec (.addu rs rt rd shamt) s = exec (.addu rs rt rd shamt') s ∧
    exec (.subu rs rt rd shamt) s = exec (.subu rs rt rd shamt') s ∧
    exec (.and rs rt rd shamt) s = exec (.and rs rt rd shamt') s ∧
    exec (.or rs rt rd shamt) s = exec (.or rs rt rd shamt') s ∧
    exec (.xor rs rt rd shamt) s = exec (.xor rs rt rd shamt') s ∧
    exec (.nor rs rt rd shamt) s = exec (.nor rs rt rd shamt') s ∧
    exec (.slt rs rt rd shamt) s = exec (.slt rs rt rd shamt') s ∧
    exec (.jr rs rt rd shamt) s = exec (.jr rs rt' rd' shamt') s ∧
    exec (.lui rs rt imm16) s = exec (.lui rs' rt imm16) s

/-! ## The instructions: what each completes with, and its frame

Each statement of this part has the form: where the selector stands in the word (its number is in
`AssembledWordsPlaceEachField`); exec answers a next state; what that state holds; everything else is
as before; what the step that runs it reports as changed. -/

/-- R131, R132: `addu` and `subu` for all operands, the same register as source and destination and
register 0 included. The results are given as numbers modulo 2^32; nothing else changes but the pc.
That they wrap is the spec's own choice (D10), as is the order of the difference (G5). -/
def Obligations.AdduSubuWriteTheWrappedResult : Prop :=
  ∀ (rs rt rd : RegIdx) (shamt : BitVec 5) (s : State),
    encode (.addu rs rt rd shamt) = assembleR 0 rs rt rd shamt 0x21 ∧
    encode (.subu rs rt rd shamt) = assembleR 0 rs rt rd shamt (codeOf .subu) ∧
    (∃ t, exec (.addu rs rt rd shamt) s = .next t ∧ ∃ v, ComputesInto s t rd v ∧
      v.toNat = ((s.reg rs).toNat + (s.reg rt).toNat) % 2 ^ 32) ∧
    (∃ t, exec (.subu rs rt rd shamt) s = .next t ∧ ∃ v, ComputesInto s t rd v ∧
      v.toNat = ((s.reg rs).toNat + 2 ^ 32 - (s.reg rt).toNat) % 2 ^ 32) ∧
    Reports s (.addu rs rt rd shamt) (some rd) none ∧
    Reports s (.subu rs rt rd shamt) (some rd) none

/-- R133 to R136: the four bitwise instructions, bit by bit; nothing else changes but the pc. -/
def Obligations.BitwiseInstructionsCombineEachBit : Prop :=
  ∀ (rs rt rd : RegIdx) (shamt : BitVec 5) (s : State),
    encode (.and rs rt rd shamt) = assembleR 0 rs rt rd shamt (codeOf .and) ∧
    encode (.or rs rt rd shamt) = assembleR 0 rs rt rd shamt (codeOf .or) ∧
    encode (.xor rs rt rd shamt) = assembleR 0 rs rt rd shamt (codeOf .xor) ∧
    encode (.nor rs rt rd shamt) = assembleR 0 rs rt rd shamt (codeOf .nor) ∧
    (∃ t, exec (.and rs rt rd shamt) s = .next t ∧ ∃ v, ComputesInto s t rd v ∧
      ∀ k < 32, v.getLsbD k = ((s.reg rs).getLsbD k && (s.reg rt).getLsbD k)) ∧
    (∃ t, exec (.or rs rt rd shamt) s = .next t ∧ ∃ v, ComputesInto s t rd v ∧
      ∀ k < 32, v.getLsbD k = ((s.reg rs).getLsbD k || (s.reg rt).getLsbD k)) ∧
    (∃ t, exec (.xor rs rt rd shamt) s = .next t ∧ ∃ v, ComputesInto s t rd v ∧
      ∀ k < 32, v.getLsbD k = ((s.reg rs).getLsbD k ^^ (s.reg rt).getLsbD k)) ∧
    (∃ t, exec (.nor rs rt rd shamt) s = .next t ∧ ∃ v, ComputesInto s t rd v ∧
      ∀ k < 32, v.getLsbD k = !((s.reg rs).getLsbD k || (s.reg rt).getLsbD k)) ∧
    Reports s (.and rs rt rd shamt) (some rd) none ∧ Reports s (.or rs rt rd shamt) (some rd) none ∧
    Reports s (.xor rs rt rd shamt) (some rd) none ∧ Reports s (.nor rs rt rd shamt) (some rd) none

/-- R137: `slt` compares the two signed numbers and writes 1 or 0. -/
def Obligations.SltComparesSignedNumbers : Prop :=
  ∀ (rs rt rd : RegIdx) (shamt : BitVec 5) (s : State),
    encode (.slt rs rt rd shamt) = assembleR 0 rs rt rd shamt (codeOf .slt) ∧
    (∃ t, exec (.slt rs rt rd shamt) s = .next t ∧ ∃ v, ComputesInto s t rd v ∧
      ((s.reg rs).toInt < (s.reg rt).toInt → v = 0x00000001) ∧
      (¬ (s.reg rs).toInt < (s.reg rt).toInt → v = 0x00000000)) ∧
    Reports s (.slt rs rt rd shamt) (some rd) none

/-- R138, R139: the logical shifts of `x[rt]` by the 5-bit amount, as numbers: a left shift loses the
bits past bit 31, a right shift brings zeros in, whatever the sign. -/
def Obligations.ShiftsMultiplyAndDivideByPowersOfTwo : Prop :=
  ∀ (rs rt rd : RegIdx) (shamt : BitVec 5) (s : State),
    encode (.sll rs rt rd shamt) = assembleR 0 rs rt rd shamt (codeOf .sll) ∧
    encode (.srl rs rt rd shamt) = assembleR 0 rs rt rd shamt (codeOf .srl) ∧
    (∃ t, exec (.sll rs rt rd shamt) s = .next t ∧ ∃ v, ComputesInto s t rd v ∧
      v.toNat = (s.reg rt).toNat * 2 ^ shamt.toNat % 2 ^ 32) ∧
    (∃ t, exec (.srl rs rt rd shamt) s = .next t ∧ ∃ v, ComputesInto s t rd v ∧
      v.toNat = (s.reg rt).toNat / 2 ^ shamt.toNat) ∧
    Reports s (.sll rs rt rd shamt) (some rd) none ∧ Reports s (.srl rs rt rd shamt) (some rd) none

/-- R151: `addiu` adds the immediate read as a signed number, modulo 2^32 (the wrap is the spec's own
choice, D10). -/
def Obligations.AddiuAddsTheSignedImmediate : Prop :=
  ∀ (rs rt : RegIdx) (imm16 : BitVec 16) (s : State),
    encode (.addiu rs rt imm16) = assembleI (codeOf .addiu) rs rt imm16 ∧
    (∃ t, exec (.addiu rs rt imm16) s = .next t ∧ ∃ v, ComputesInto s t rt v ∧
      (v.toNat : Int) = (((s.reg rs).toNat : Int) +
        (if imm16.toNat < 32768 then (imm16.toNat : Int) else imm16.toNat - 65536)) % 2 ^ 32) ∧
    Reports s (.addiu rs rt imm16) (some rt) none

/-- R152, R153: `andi` and `ori` use the immediate with zeros above bit 15, bit by bit. -/
def Obligations.AndiOriUseTheZeroExtendedImmediate : Prop :=
  ∀ (rs rt : RegIdx) (imm16 : BitVec 16) (s : State),
    encode (.andi rs rt imm16) = assembleI (codeOf .andi) rs rt imm16 ∧
    encode (.ori rs rt imm16) = assembleI (codeOf .ori) rs rt imm16 ∧
    (∃ t, exec (.andi rs rt imm16) s = .next t ∧ ∃ v, ComputesInto s t rt v ∧
      ∀ k < 32, v.getLsbD k =
        if k < 16 then ((s.reg rs).getLsbD k && imm16.getLsbD k) else false) ∧
    (∃ t, exec (.ori rs rt imm16) s = .next t ∧ ∃ v, ComputesInto s t rt v ∧
      ∀ k < 32, v.getLsbD k =
        if k < 16 then ((s.reg rs).getLsbD k || imm16.getLsbD k) else (s.reg rs).getLsbD k) ∧
    Reports s (.andi rs rt imm16) (some rt) none ∧ Reports s (.ori rs rt imm16) (some rt) none

/-- R154: `lui` writes the immediate times 2^16. -/
def Obligations.LuiWritesTheUpperHalfword : Prop :=
  ∀ (rs rt : RegIdx) (imm16 : BitVec 16) (s : State),
    encode (.lui rs rt imm16) = assembleI (codeOf .lui) rs rt imm16 ∧
    (∃ t, exec (.lui rs rt imm16) s = .next t ∧ ∃ v, ComputesInto s t rt v ∧
      v.toNat = imm16.toNat * 2 ^ 16) ∧
    Reports s (.lui rs rt imm16) (some rt) none

/-- R165, R166: `beq` and `bne` go to `pc + 4 + 4*immediate` when the condition holds, whatever the sign
of the immediate, and to `pc + 4` when it does not; nothing but the pc changes. -/
def Obligations.BranchesMoveOnlyThePc : Prop :=
  ∀ (rs rt : RegIdx) (imm16 : BitVec 16) (s : State),
    encode (.beq rs rt imm16) = assembleI (codeOf .beq) rs rt imm16 ∧
    encode (.bne rs rt imm16) = assembleI (codeOf .bne) rs rt imm16 ∧
    (∃ t, exec (.beq rs rt imm16) s = .next t ∧ ∃ target, OnlyMovesPc s t target ∧
      (s.reg rs = s.reg rt →
        (target.toNat : Int) = ((s.pc.toNat : Int) + 4 + 4 *
          (if imm16.toNat < 32768 then (imm16.toNat : Int) else imm16.toNat - 65536)) % 2 ^ 32) ∧
      (s.reg rs ≠ s.reg rt → target.toNat = (s.pc.toNat + 4) % 2 ^ 32)) ∧
    (∃ t, exec (.bne rs rt imm16) s = .next t ∧ ∃ target, OnlyMovesPc s t target ∧
      (s.reg rs ≠ s.reg rt →
        (target.toNat : Int) = ((s.pc.toNat : Int) + 4 + 4 *
          (if imm16.toNat < 32768 then (imm16.toNat : Int) else imm16.toNat - 65536)) % 2 ^ 32) ∧
      (s.reg rs = s.reg rt → target.toNat = (s.pc.toNat + 4) % 2 ^ 32)) ∧
    Reports s (.beq rs rt imm16) none none ∧ Reports s (.bne rs rt imm16) none none

/-- R167, R168: `j` moves only the pc, to the J-format target; `jal` goes to the same target and writes
the address of the next instruction into register 31 and no other register. -/
def Obligations.JumpsGoToTheTargetAndJalLinks : Prop :=
  ∀ (target26 : BitVec 26) (s : State),
    encode (.j target26) = assembleJ (codeOf .j) target26 ∧
    encode (.jal target26) = assembleJ (codeOf .jal) target26 ∧
    (∃ t, exec (.j target26) s = .next t ∧ ∃ target, OnlyMovesPc s t target ∧
      target.toNat = ((s.pc.toNat + 4) % 2 ^ 32) / 2 ^ 28 * 2 ^ 28 + target26.toNat * 4) ∧
    (∃ t, exec (.jal target26) s = .next t ∧
      t.pc.toNat = ((s.pc.toNat + 4) % 2 ^ 32) / 2 ^ 28 * 2 ^ 28 + target26.toNat * 4 ∧
      WritesOnly s t 31 (s.pc + 4) ∧ SameMemory s t ∧ SameControl s t) ∧
    Reports s (.j target26) none none ∧ Reports s (.jal target26) (some 31) none

/-- R169: `jr` copies the register it names (the spec's own choice, D7) into the pc, aligned or not, and
changes nothing else. -/
def Obligations.JrCopiesTheNamedRegister : Prop :=
  ∀ (rs rt rd : RegIdx) (shamt : BitVec 5) (s : State),
    encode (.jr rs rt rd shamt) = assembleR 0 rs rt rd shamt (codeOf .jr) ∧
    (∃ t, exec (.jr rs rt rd shamt) s = .next t ∧ OnlyMovesPc s t (s.reg rs)) ∧
    Reports s (.jr rs rt rd shamt) none none

/-- R182: `lw` at an address that is a multiple of 4 inside the data window writes the word there, and
only that; at any other address it takes MemoryAccessFault with its pc and the address. -/
def Obligations.LwLoadsTheWordOrFaults : Prop :=
  ∀ (rs rt : RegIdx) (imm16 : BitVec 16) (s : State),
    encode (.lw rs rt imm16) = assembleI (codeOf .lw) rs rt imm16 ∧
    let ea := s.reg rs + imm16.signExtend 32
    (ea.toNat % 4 = 0 ∧ s.cfg.dataLo ≤ ea.toNat ∧ ea.toNat < s.cfg.dataHi →
      (∃ t, exec (.lw rs rt imm16) s = .next t ∧ ComputesInto s t rt (s.mem.readWord ea.toNat)) ∧
      Reports s (.lw rs rt imm16) (some rt) none) ∧
    (¬ (ea.toNat % 4 = 0 ∧ s.cfg.dataLo ≤ ea.toNat ∧ ea.toNat < s.cfg.dataHi) →
      ∃ t, exec (.lw rs rt imm16) s = .next t ∧ TakesFault s t (.memoryAccessFault s.pc ea))

/-- R183: `sw` at an address that is a multiple of 4 inside the data window stores `x[rt]` in the four
bytes from that address and nowhere else; at any other address it takes MemoryAccessFault. Memory
is premised to be in canonical form, the invariant `StepKeepsTheInvariant` states. -/
def Obligations.SwStoresTheWordOrFaults : Prop :=
  ∀ (rs rt : RegIdx) (imm16 : BitVec 16) (s : State),
    encode (.sw rs rt imm16) = assembleI (codeOf .sw) rs rt imm16 ∧
    let ea := s.reg rs + imm16.signExtend 32
    (s.mem.wf → ea.toNat % 4 = 0 ∧ s.cfg.dataLo ≤ ea.toNat ∧ ea.toNat < s.cfg.dataHi →
      (∃ t, exec (.sw rs rt imm16) s = .next t ∧ StoresOnly s t ea.toNat (s.reg rt) ∧
        t.pc = s.pc + 4 ∧ SameRegs s t ∧ SameControl s t) ∧
      Reports s (.sw rs rt imm16) none (some ea)) ∧
    (¬ (ea.toNat % 4 = 0 ∧ s.cfg.dataLo ≤ ea.toNat ∧ ea.toNat < s.cfg.dataHi) →
      ∃ t, exec (.sw rs rt imm16) s = .next t ∧ TakesFault s t (.memoryAccessFault s.pc ea))

/-- R21: register 0 is an ordinary register (the policy the spec picks, D6): a write to it is
stored, and a later instruction reads the value written. -/
def Obligations.RegisterZeroKeepsWhatIsWritten : Prop :=
  ∀ (rs rt rd : RegIdx) (shamt shamt' : BitVec 5) (s : State),
    ∃ t u, exec (.addu rs rt 0 shamt) s = .next t ∧ t.reg 0 = s.reg rs + s.reg rt ∧
      exec (.addu 0 0 rd shamt') t = .next u ∧ u.reg rd = t.reg 0 + t.reg 0

/-- R140: the sum and difference are the same whether the operands are read as signed or as unsigned
numbers: of one result, the unsigned reading is the unsigned sum or difference modulo 2^32, and the
signed reading is the signed sum or difference wrapped (D10, the spec's own choice). -/
def Obligations.ArithmeticWrapsUnderBothReadings : Prop :=
  ∀ (rs rt rd : RegIdx) (shamt : BitVec 5) (imm16 : BitVec 16) (s : State),
    (∃ t, exec (.addu rs rt rd shamt) s = .next t ∧
      ((t.reg rd).toNat : Int) = (((s.reg rs).toNat : Int) + (s.reg rt).toNat) % 2 ^ 32 ∧
      (t.reg rd).toInt = ((s.reg rs).toInt + (s.reg rt).toInt).bmod (2 ^ 32)) ∧
    (∃ t, exec (.subu rs rt rd shamt) s = .next t ∧
      ((t.reg rd).toNat : Int) = (((s.reg rs).toNat : Int) - (s.reg rt).toNat) % 2 ^ 32 ∧
      (t.reg rd).toInt = ((s.reg rs).toInt - (s.reg rt).toInt).bmod (2 ^ 32)) ∧
    (∃ t, exec (.addiu rs rt imm16) s = .next t ∧
      ((t.reg rt).toNat : Int) =
        (((s.reg rs).toNat : Int) + (imm16.signExtend 32).toNat) % 2 ^ 32 ∧
      (t.reg rt).toInt = ((s.reg rs).toInt + imm16.toInt).bmod (2 ^ 32))

/-- R153's corner case: after `lui rt, hi` the instruction `ori rt, rt, lo` leaves the constant
`hi ++ lo` in `rt`. -/
def Obligations.LuiThenOriBuildsTheConstant : Prop :=
  ∀ (rs rt : RegIdx) (hi lo : BitVec 16) (s : State),
    ∃ t u, exec (.lui rs rt hi) s = .next t ∧ exec (.ori rt rt lo) t = .next u ∧
      (u.reg rt).toNat = hi.toNat * 2 ^ 16 + lo.toNat ∧ ∀ r, r ≠ rt → u.reg r = s.reg r

/-! ## Memory -/

/-- R51, R60: a word stored by `sw` is read back as the same word by a `lw` at the same address,
whatever register and displacement each forms it with. -/
def Obligations.StoreThenLoadReturnsTheWord : Prop :=
  ∀ (rs rt rs' rt' : RegIdx) (imm16 imm16' : BitVec 16) (s : State),
    s.mem.wf → memOK s.cfg (s.ea rs imm16) = true → s.ea rs' imm16' = s.ea rs imm16 →
    ∃ t u, exec (.sw rs rt imm16) s = .next t ∧ exec (.lw rs' rt' imm16') t = .next u ∧
      u.reg rt' = s.reg rt

/-- R62, first sentence: a store is seen by the fetch of the same word in the very next step (the spec's
own choice, D20). -/
def Obligations.StoreIsVisibleToTheNextFetch : Prop :=
  ∀ (rs rt : RegIdx) (imm16 : BitVec 16) (s : State),
    s.mem.wf → memOK s.cfg (s.ea rs imm16) = true → s.ea rs imm16 = s.pc + 4 →
    ∃ t, exec (.sw rs rt imm16) s = .next t ∧ t.fetch = some (s.reg rt)

/-- R62, "the code segment is immutable after reset": along every run, no byte outside the data window
(all of the data segment by the spec's own choice, D4) ever changes. -/
def Obligations.OnlyTheDataWindowEverChanges : Prop :=
  ∀ (n : Nat) (s t : State), s.Inv → Sys2Proof.core.run n s = .next t →
    ∀ a, ¬ (s.cfg.dataLo ≤ a ∧ a < s.cfg.dataHi) → t.mem.read a = s.mem.read a

/-- R58, which the spec marks as derived: with `TOP <= 2^31` the two checks do not depend on whether
addresses are read as signed or unsigned. -/
def Obligations.AddressChecksAgreeOnSignedReading : Prop :=
  ∀ (c : Params) (a : Word), c.wf →
    (memOK c a = true ↔
      a.toInt % 4 = 0 ∧ (c.dataLo : Int) ≤ a.toInt ∧ a.toInt < (c.dataHi : Int)) ∧
    (fetchOK c a = true ↔
      a.toInt % 4 = 0 ∧ (c.base : Int) ≤ a.toInt ∧ a.toInt < (c.top : Int))

/-- R184: one word below the window, one word above it and a misaligned address inside it each make a
load and a store fault and leave the machine state for that instruction unmodified; the lowest and
the highest word of the window do not fault. -/
def Obligations.LoadsAndStoresFaultJustOutsideTheWindow : Prop :=
  ∀ (rs rt : RegIdx) (imm16 : BitVec 16) (s : State), s.cfg.wf →
    ((s.ea rs imm16).toNat = s.cfg.dataLo - 4 ∨ (s.ea rs imm16).toNat = s.cfg.dataHi ∨
        (s.ea rs imm16).toNat % 4 ≠ 0 →
      (∃ t, exec (.lw rs rt imm16) s = .next t ∧
        TakesFault s t (.memoryAccessFault s.pc (s.ea rs imm16))) ∧
      (∃ t, exec (.sw rs rt imm16) s = .next t ∧
        TakesFault s t (.memoryAccessFault s.pc (s.ea rs imm16)))) ∧
    ((s.ea rs imm16).toNat = s.cfg.dataLo ∨ (s.ea rs imm16).toNat = s.cfg.dataHi - 4 →
      (∃ t, exec (.lw rs rt imm16) s = .next t ∧ t.run = s.run ∧ t.pc = s.pc + 4) ∧
      (∃ t, exec (.sw rs rt imm16) s = .next t ∧ t.run = s.run ∧ t.pc = s.pc + 4))

/-- The model's own canonical form (log entry 4) does its work: two memories in it that read alike at
every address are equal as data. -/
def Obligations.CanonicalMemoriesThatReadAlikeAreEqual : Prop :=
  ∀ m m' : Memory, m.wf → m'.wf → (∀ a, m.read a = m'.read a) → m = m'

/-! ## The step -/

/-- R201, one step of a running core whose stop request is not asserted: when the four bytes at a pc
that passes the fetch check decode to an instruction, the step is exec of that instruction, on the
state whose `stop_req` level has been sampled (the model's own input list, log entry 5). -/
def Obligations.StepRunsTheDecodedInstruction : Prop :=
  ∀ (s : State) (i : Instr), s.run = .running → s.stopAsserted = false →
    fetchOK s.cfg s.pc = true →
    decodeBytes s.pc [s.mem.read s.pc.toNat, s.mem.read (s.pc.toNat + 1),
      s.mem.read (s.pc.toNat + 2), s.mem.read (s.pc.toNat + 3)] = .ok (i, []) →
    step s = exec i s.sampled

/-- R256, in the sentence the spec marks as derived: a step always completes: it commits, faults or
halts, and never gets stuck; in the model it always answers a next state, along every run. -/
def Obligations.EveryRunAnswersANextState : Prop :=
  ∀ (n : Nat) (s : State), ∃ t : State, Sys2Proof.core.run n s = .next t

/-- R195: with the stop request asserted the step does nothing but halt normally, whatever the pc. That
it is sampled first is the spec's own choice (D15); the list of levels is the model's (log entry 5). -/
def Obligations.StopRequestOnlyHaltsTheCore : Prop :=
  ∀ s : State, s.run = .running → s.stopAsserted = true →
    ∃ t, step s = .next t ∧ t.run = .haltedNormal ∧ t.pc = s.pc ∧ SameRegs s t ∧ SameMemory s t ∧
      t.cfg = s.cfg ∧
      stepOutput s = some
        { text := none, newPC := s.pc, changedReg := none, changedMem := none, fault := none }

/-- R57: a pc that is not a multiple of 4 or lies outside the memory array takes FetchFault with
that pc, unless the stop request is asserted, and nothing is fetched; at any other pc the fetched
word is the word of the memory array there. The bounds and the fault are the spec's own choice (D8).
(`s.sampled` differs from `s` in the model's own input list alone, log entry 5.) -/
def Obligations.FetchCheckDecidesWhatIsFetched : Prop :=
  ∀ s : State,
    ((s.pc.toNat % 4 ≠ 0 ∨ s.pc.toNat < s.cfg.base ∨ s.cfg.top ≤ s.pc.toNat) →
      s.fetch = none ∧
      (s.run = .running → s.stopAsserted = false →
        ∃ t, step s = .next t ∧ TakesFault s.sampled t (.fetchFault s.pc))) ∧
    (s.pc.toNat % 4 = 0 ∧ s.cfg.base ≤ s.pc.toNat ∧ s.pc.toNat < s.cfg.top →
      s.fetch = some (s.mem.readWord s.pc.toNat))

/-- R221: a fetched word that is the word of none of the twenty instructions takes
UnsupportedInstruction with the word and its pc, and no partial effect is committed; a word of one
of the twenty never does. -/
def Obligations.UnsupportedWordTakesItsFault : Prop :=
  ∀ (s : State) (w : Word), s.run = .running → s.stopAsserted = false → s.fetch = some w →
    ((∀ i, encode i ≠ w) →
      ∃ t, step s = .next t ∧ TakesFault s.sampled t (.unsupportedInstruction w s.pc)) ∧
    ((∃ i, encode i = w) →
      ∃ t, step s = .next t ∧ ∀ w' p, t.run ≠ .haltedFault (.unsupportedInstruction w' p))

/-- R226: within one step the conditions are tested in the order stop request, FetchFault,
UnsupportedInstruction, MemoryAccessFault; each outcome happens exactly when its condition holds
and none before it does, and only `lw` and `sw` reach the last. That the stop comes first is the
spec's own choice (D15), as is FetchFault (D8). -/
def Obligations.FaultConditionsFollowThePriorityOrder : Prop :=
  ∀ s t : State, s.run = .running → step s = .next t →
    (t.run = .haltedNormal ↔ s.stopAsserted = true) ∧
    (∀ p, t.run = .haltedFault (.fetchFault p) ↔
      s.stopAsserted = false ∧ fetchOK s.cfg s.pc = false ∧ p = s.pc) ∧
    (∀ w p, t.run = .haltedFault (.unsupportedInstruction w p) ↔
      s.stopAsserted = false ∧ s.fetch = some w ∧ p = s.pc ∧
        ∀ i, decodeInstr w s.pc ≠ .ok i) ∧
    (∀ p ea, t.run = .haltedFault (.memoryAccessFault p ea) ↔
      s.stopAsserted = false ∧ p = s.pc ∧ memOK s.cfg ea = false ∧
        ∃ w rs rt imm16, s.fetch = some w ∧ ea = s.reg rs + sext32 imm16 ∧
          (decodeInstr w s.pc = .ok (.lw rs rt imm16) ∨
            decodeInstr w s.pc = .ok (.sw rs rt imm16)))

/-- R224: a step that ends in a fault changes no register, no memory byte and not the pc: the run state
records the fault and nothing else changes (the list of coming input levels, log entry 5, has been
sampled as on every step); the output is the fault, the unchanged pc and no change. That the pc is
among the unchanged state is the spec's own choice (D9). -/
def Obligations.FaultChangesOnlyTheRunState : Prop :=
  ∀ (s t : State) (f : Fault), s.run = .running → step s = .next t → t.run = .haltedFault f →
    t = { s with run := .haltedFault f, stopReq := s.stopReq.tail } ∧
    ∃ o, stepOutput s = some o ∧ o.fault = some f ∧ o.newPC = s.pc ∧
      o.changedReg = none ∧ o.changedMem = none

/-- R199: both halted states are absorbing (the spec's own choice, D16): the core takes no step,
puts out nothing, and keeps its whole state for ever. -/
def Obligations.HaltedStatesAreAbsorbing : Prop :=
  ∀ (n : Nat) (s : State), s.run ≠ .running →
    Sys2Proof.core.run n s = .next s ∧ stepOutput s = none

/-- R25: a step that completes sets the pc to `pc + 4` for every instruction but a taken `beq` or `bne`
(`pc + 4 + 4*sext_32(imm16)`), `j` and `jal` (the 32-bit target) and `jr` (`x[rs]`); on a fault the pc
is not changed. With R7's constraints a pc that is fetched from never wraps by `+4`. The spec
marks the wrap of the addition as derived and the unchanged pc as its own choice (D9). -/
def Obligations.StepsMoveThePcByTheRule : Prop :=
  ∀ (s t : State) (w : Word) (i : Instr), s.run = .running → s.stopAsserted = false →
    s.fetch = some w → decodeInstr w s.pc = .ok i → step s = .next t →
    (t.run = .running →
      (∃ rs rt imm16, ((i = .beq rs rt imm16 ∧ s.reg rs = s.reg rt) ∨
          (i = .bne rs rt imm16 ∧ s.reg rs ≠ s.reg rt)) ∧
          t.pc = s.pc + 4 + 4 * imm16.signExtend 32) ∨
      (∃ target26, (i = .j target26 ∨ i = .jal target26) ∧ t.pc = jumpTarget s.pc target26) ∨
      (∃ rs rt rd shamt, i = .jr rs rt rd shamt ∧ t.pc = s.reg rs) ∨
      ((∀ target26, i ≠ .j target26 ∧ i ≠ .jal target26) ∧
        (∀ rs rt rd shamt, i ≠ .jr rs rt rd shamt) ∧
        (∀ rs rt imm16, i = .beq rs rt imm16 → s.reg rs ≠ s.reg rt) ∧
        (∀ rs rt imm16, i = .bne rs rt imm16 → s.reg rs = s.reg rt) ∧
        t.pc = s.pc + 4)) ∧
    (t.run ≠ .running → t.pc = s.pc) ∧
    (s.cfg.wf → (s.pc + 4).toNat = s.pc.toNat + 4)

/-- R26: the pc after reset is a multiple of 4, and whatever the instruction but `jr`, a pc that is a
multiple of 4 stays one; `jr` to a value that is not one completes, and the next step takes FetchFault
with the pc at that value; a pc that is misaligned or outside the array raises FetchFault and nothing
is fetched; and every pc from which an instruction is fetched is a multiple of 4 and lies in
`[BASE, TOP)`. That the check stands at the next fetch is the spec's own choice (D8). -/
def Obligations.OnlyJrCanMisalignThePc : Prop :=
  (∀ (c : Params) (image : List Word) (stops : List Bool) (s : State),
    State.resetWith c image stops = some s → s.pc.toNat % 4 = 0) ∧
  (∀ (s t : State) (i : Instr), s.pc.toNat % 4 = 0 → (∀ rs rt rd shamt, i ≠ .jr rs rt rd shamt) →
    exec i s = .next t → t.pc.toNat % 4 = 0) ∧
  (∀ (s : State) (rs rt rd : RegIdx) (shamt : BitVec 5), s.run = .running →
    s.stopAsserted = false → (s.reg rs).toNat % 4 ≠ 0 →
    ∃ t u, exec (.jr rs rt rd shamt) s = .next t ∧ t.run = .running ∧ t.pc = s.reg rs ∧
      step t = .next u ∧ u.run = .haltedFault (.fetchFault (s.reg rs)) ∧ u.pc = s.reg rs) ∧
  (∀ s : State, s.run = .running → s.stopAsserted = false →
    (s.pc.toNat % 4 ≠ 0 ∨ s.pc.toNat < s.cfg.base ∨ s.cfg.top ≤ s.pc.toNat) →
    s.fetch = none ∧ ∃ t, step s = .next t ∧ t.run = .haltedFault (.fetchFault s.pc)) ∧
  (∀ (s : State) (w : Word), s.fetch = some w →
    s.pc.toNat % 4 = 0 ∧ s.cfg.base ≤ s.pc.toNat ∧ s.pc.toNat < s.cfg.top)

/-- R23: which registers an instruction reads and writes. It keeps every register it does not write, the
ones it reads too. A register it neither reads nor writes can hold anything: the instruction does the
same. One it writes without reading may hold anything, too: the instruction, where it completes, does
the same. -/
def Obligations.InstructionsReadOnlyTheRegistersTheyName : Prop :=
  ∀ (i : Instr) (s t : State) (r : RegIdx) (v : Word),
    let reads : List RegIdx := match i with
      | .addu rs rt _ _ | .subu rs rt _ _ | .and rs rt _ _ | .or rs rt _ _ | .xor rs rt _ _
      | .nor rs rt _ _ | .slt rs rt _ _ => [rs, rt]
      | .sll _ rt _ _ | .srl _ rt _ _ => [rt]
      | .jr rs _ _ _ => [rs]
      | .addiu rs _ _ | .andi rs _ _ | .ori rs _ _ | .lw rs _ _ => [rs]
      | .beq rs rt _ | .bne rs rt _ | .sw rs rt _ => [rs, rt]
      | .lui _ _ _ | .j _ | .jal _ => []
    let writes : List RegIdx := match i with
      | .addu _ _ rd _ | .subu _ _ rd _ | .and _ _ rd _ | .or _ _ rd _ | .xor _ _ rd _
      | .nor _ _ rd _ | .slt _ _ rd _ | .sll _ _ rd _ | .srl _ _ rd _ => [rd]
      | .addiu _ rt _ | .andi _ rt _ | .ori _ rt _ | .lui _ rt _ | .lw _ rt _ => [rt]
      | .jal _ => [31]
      | .jr _ _ _ _ | .beq _ _ _ | .bne _ _ _ | .sw _ _ _ | .j _ => []
    exec i s = .next t →
      (∀ q, q ∉ writes → t.reg q = s.reg q) ∧
      (r ∉ reads → r ∉ writes → exec i (s.setReg r v) = .next (t.setReg r v)) ∧
      (r ∉ reads → r ∈ writes → t.run = s.run → s.run = .running →
        exec i (s.setReg r v) = .next t)

/-- R197: at most one register and at most one aligned memory word change per step, and never both. A
step that runs an instruction can change only that instruction's destination register, and memory only
if it is an `sw` whose effective address passes the check: then the four bytes at that address, a
multiple of 4, and no register. Every other step (a stop, a fault before the instruction runs, a
halted core) changes no register and no byte. -/
def Obligations.AtMostOneRegisterOrOneWordChanges : Prop :=
  ∀ s t : State, s.mem.wf → step s = .next t →
    (∀ (w : Word) (i : Instr), s.run = .running → s.stopAsserted = false →
      s.fetch = some w → decodeInstr w s.pc = .ok i →
      let dest : Option RegIdx := match i with
        | .addu _ _ rd _ | .subu _ _ rd _ | .and _ _ rd _ | .or _ _ rd _ | .xor _ _ rd _
        | .nor _ _ rd _ | .slt _ _ rd _ | .sll _ _ rd _ | .srl _ _ rd _ => some rd
        | .addiu _ rt _ | .andi _ rt _ | .ori _ rt _ | .lui _ rt _ | .lw _ rt _ => some rt
        | .jal _ => some 31
        | .sw _ _ _ | .beq _ _ _ | .bne _ _ _ | .j _ | .jr _ _ _ _ => none
      (∀ r, dest ≠ some r → t.reg r = s.reg r) ∧
      (∀ rs rt imm16, i = .sw rs rt imm16 → memOK s.cfg (s.ea rs imm16) = true →
        SameRegs s t ∧ (s.ea rs imm16).toNat % 4 = 0 ∧
        ∀ b, ¬ ((s.ea rs imm16).toNat ≤ b ∧ b < (s.ea rs imm16).toNat + 4) →
          t.mem.read b = s.mem.read b) ∧
      ((∀ rs rt imm16, i = .sw rs rt imm16 → memOK s.cfg (s.ea rs imm16) = false) →
        SameMemory s t)) ∧
    ((¬ ∃ w i, s.run = .running ∧ s.stopAsserted = false ∧ s.fetch = some w ∧
        decodeInstr w s.pc = .ok i) →
      SameRegs s t ∧ SameMemory s t)

/-- The model's own two fields (log entries 1 and 5): no step changes the parameters, and a step of a
running core consumes exactly one level of the stop request. -/
def Obligations.StepKeepsParametersAndSamplesTheStopOnce : Prop :=
  ∀ s t : State, step s = .next t →
    t.cfg = s.cfg ∧ (s.run = .running → t.stopReq = s.stopReq.tail)

/-- R199: since halted states are absorbing (D16, the spec's own choice), a run that ends in a state
not halted by a fault took no fault at any earlier step: a safe run is safe at every point of it. -/
def Obligations.SafeRunsTookNoEarlierFault : Prop :=
  ∀ (m n : Nat) (s : State), m ≤ n → SafeRun n s → SafeRun m s

/-! ## Reset -/

/-- R33, R250 to R252: for parameters within R7's constraints and an image that fits the code segment,
reset leaves every register 0 but the stack pointer, which is TOP; the pc at BASE; the image from
BASE on and zero in every other word of the array; the core running. -/
def Obligations.ResetLeavesTheSpecifiedState : Prop :=
  ∀ (c : Params) (image : List Word) (stops : List Bool), c.wf → image.length ≤ c.ni →
    ∃ s, State.resetWith c image stops = some s ∧
      (s.reg c.spIndex).toNat = c.top ∧ (∀ r, r ≠ c.spIndex → s.reg r = 0) ∧
      s.pc.toNat = c.base ∧ s.run = .running ∧ s.cfg = c ∧
      ∀ k, s.mem.readWord (c.base + 4 * k) = image.getD k 0

/-- R252: "word count must not exceed the code-segment capacity": a reset with a longer image has no
meaning, which the model answers with none (log entry 8). -/
def Obligations.ResetRefusesAnImageThatDoesNotFit : Prop :=
  ∀ (c : Params) (image : List Word) (stops : List Bool), c.ni < image.length →
    State.resetWith c image stops = none

/-- R33's column of default values, on the machine the host starts. The defaults themselves are the
spec's own choice from general knowledge (R7; PRESUMED, log entries 1 and 2). -/
def Obligations.DefaultResetValues : Prop :=
  State.reset.reg 29 = 0x00404000 ∧ (∀ r, r ≠ 29 → State.reset.reg r = 0) ∧
  State.reset.pc = 0x00400000 ∧ (∀ a, State.reset.mem.read a = 0) ∧ State.reset.run = .running ∧
  State.resetWith Params.default [] [] = some State.reset

/-- R253: execution begins with the word at BASE: after every reset, whatever the coming stop levels, the
first fetch gives the image's first word, or the zero word if the image is empty; and unless the stop
request is asserted at the first step, a zero word only advances the pc. That a zero word is
`sll $0, $0, 0` the spec marks as derived (R94), and funct 0x00 for `sll` is its own choice (G1;
PRESUMED, log entry 3). (`s.sampled` differs from `s` in the model's own input list alone, log
entry 5.) -/
def Obligations.ExecutionBeginsWithTheImage : Prop :=
  ∀ (c : Params) (image : List Word) (stops : List Bool) (s : State),
    State.resetWith c image stops = some s →
    s.fetch = some (image.getD 0 0) ∧
    (s.stopAsserted = false → image.getD 0 0 = 0 →
      ∃ t, step s = .next t ∧ OnlyMovesPc s.sampled t (s.pc + 4))

/-! ## Invariants -/

/-- The invariant and the truth of fault records hold of every reset state. -/
def Obligations.ResetMeetsTheInvariants : Prop :=
  ∀ (c : Params) (image : List Word) (stops : List Bool) (s : State),
    State.resetWith c image stops = some s → s.Inv ∧ s.FaultRecordTrue

/-- Every step keeps the invariant: parameters within R7, memory in canonical form, no cell outside the
memory array (R50). -/
def Obligations.StepKeepsTheInvariant : Prop :=
  ∀ s t : State, s.Inv → step s = .next t → t.Inv

/-- R221 to R224: every step keeps fault records true: a halted core's record names the pc it stands at
and the cause that still holds there: the bad pc, the unsupported word at it, or the load or store at
it whose effective address fails the check. That the pc still names the faulting instruction is the
spec's own choice (D9), as is FetchFault (D8); that a fault is a next state is DEDUCED (log entry
6). -/
def Obligations.StepKeepsFaultRecordsTrue : Prop :=
  ∀ s t : State, s.FaultRecordTrue → step s = .next t → t.FaultRecordTrue

/-! ## The blocks and the per-step output -/

/-- R201: the composition of the sub-blocks (decode, format, execute, nextPC, access, writeback, one
commit) and the per-instruction meanings are the same machine, in every state. DEDUCED by the model:
the step of a halted core (log entry 7), the output as a function (11), what the blocks are given
(13). -/
def Obligations.BlocksComposeToTheStep : Prop :=
  ∀ s : State, step s = .next (blockCycle s)

/-- R198: the output of every step of a running core is true of the state it ends in: the new pc, the
register and the word that may have changed and no other, the fault exactly when the core halts by
it, and no change reported on a fault or a stop. That the pc is unchanged on a fault is the spec's
own choice (D9). -/
def Obligations.OutputReportsWhatTheStepDid : Prop :=
  ∀ s t : State, s.run = .running → s.mem.wf → step s = .next t →
    ∃ o, stepOutput s = some o ∧ o.newPC = t.pc ∧
      (∀ f, o.fault = some f ↔ t.run = .haltedFault f) ∧
      (∀ r, o.changedReg ≠ some r → t.reg r = s.reg r) ∧
      (o.changedMem = none → SameMemory s t) ∧
      (∀ a, o.changedMem = some a → memOK s.cfg a = true ∧
        ∀ b, ¬ (a.toNat ≤ b ∧ b < a.toNat + 4) → t.mem.read b = s.mem.read b) ∧
      (t.run ≠ .running → o.changedReg = none ∧ o.changedMem = none ∧ t.pc = s.pc)

/-- R191, R192, R198: the reported register is the destination of the instruction (`rd`, `rt`, 31) when
the step completes and the instruction has one, and none in every other case; the reported address is
the effective address of a completed `sw` and none in every other case. Neither depends on whether the
new value differs from the old (the spec's own choice, D19). -/
def Obligations.ReportedChangesFollowTheWriteEnable : Prop :=
  ∀ s t : State, s.run = .running → step s = .next t →
    ∃ o, stepOutput s = some o ∧
      (t.run ≠ .running → o.changedReg = none ∧ o.changedMem = none) ∧
      (t.run = .running → ∃ w i, s.fetch = some w ∧ decodeInstr w s.pc = .ok i ∧
        o.changedReg = (match i with
          | .addu _ _ rd _ | .subu _ _ rd _ | .and _ _ rd _ | .or _ _ rd _ | .xor _ _ rd _
          | .nor _ _ rd _ | .slt _ _ rd _ | .sll _ _ rd _ | .srl _ _ rd _ => some rd
          | .addiu _ rt _ | .andi _ rt _ | .ori _ rt _ | .lui _ rt _ | .lw _ rt _ => some rt
          | .jal _ => some 31
          | .sw _ _ _ | .beq _ _ _ | .bne _ _ _ | .j _ | .jr _ _ _ _ => none) ∧
        o.changedMem = (match i with
          | .sw rs _ imm16 => some (s.reg rs + sext32 imm16)
          | .addu _ _ _ _ | .subu _ _ _ _ | .and _ _ _ _ | .or _ _ _ _ | .xor _ _ _ _
          | .nor _ _ _ _ | .slt _ _ _ _ | .sll _ _ _ _ | .srl _ _ _ _ | .jr _ _ _ _
          | .addiu _ _ _ | .andi _ _ _ | .ori _ _ _ | .lui _ _ _ | .lw _ _ _ | .beq _ _ _
          | .bne _ _ _ | .j _ | .jal _ => none))

/-- R198, first row: a text is put out on a completed step and on a MemoryAccessFault, and on no other
step; which text it is stays open (R212). -/
def Obligations.TextIsPutOutOncePastTheFormatter : Prop :=
  ∀ s t : State, s.run = .running → step s = .next t →
    ∃ o, stepOutput s = some o ∧
      (o.text.isSome = true ↔
        t.run = .running ∨ ∃ p ea, t.run = .haltedFault (.memoryAccessFault p ea))
end

