-- ==== Sys2Proof/Laws/Decode.lean ====
section
/-! SUPPORT. Field extraction undone: each field of an assembled word is the field it was assembled from
(spec/30_encoding.md R81 to R83), and every word is the concatenation of its fields. -/

namespace Sys2Proof

/-- The low part of a concatenation. -/
theorem extractLsb'_append_low {n m : Nat} (x : BitVec n) (y : BitVec m) (k len : Nat)
    (h : k + len ≤ m) : (x ++ y).extractLsb' k len = y.extractLsb' k len := by
  apply BitVec.eq_of_getLsbD_eq
  intro i hi
  simp [BitVec.getLsbD_append, hi, show k + i < m by omega]

/-- The high part of a concatenation. -/
theorem extractLsb'_append_high {n m : Nat} (x : BitVec n) (y : BitVec m) (k len : Nat)
    (h : m ≤ k) : (x ++ y).extractLsb' k len = x.extractLsb' (k - m) len := by
  apply BitVec.eq_of_getLsbD_eq
  intro i hi
  simp [BitVec.getLsbD_append, hi, show ¬ k + i < m by omega, show k + i - m = k - m + i by omega]

/-- The whole of a vector. -/
theorem extractLsb'_whole {n : Nat} (x : BitVec n) : x.extractLsb' 0 n = x := by
  apply BitVec.eq_of_getLsbD_eq
  intro i hi
  simp [hi]

/-- The opcode is bits 31..26 (R111). -/
theorem opcodeField_eq (w : Word) : opcodeField w = w.extractLsb' 26 6 := by
  apply BitVec.eq_of_getLsbD_eq
  intro i hi
  simp [opcodeField, hi]

section R
variable (opcode : BitVec 6) (rs rt rd : RegIdx) (shamt : BitVec 5) (funct : BitVec 6)

@[simp] theorem opcodeField_assembleR :
    opcodeField (assembleR opcode rs rt rd shamt funct) = opcode :=
  (opcodeField_eq _).trans <|
    (extractLsb'_append_high _ funct 26 6 (by decide)).trans <|
    (extractLsb'_append_high _ shamt 20 6 (by decide)).trans <|
    (extractLsb'_append_high _ rd 15 6 (by decide)).trans <|
    (extractLsb'_append_high _ rt 10 6 (by decide)).trans <|
    (extractLsb'_append_high _ rs 5 6 (by decide)).trans (extractLsb'_whole opcode)

@[simp] theorem rs_assembleR :
    (assembleR opcode rs rt rd shamt funct).extractLsb' 21 5 = rs :=
  (extractLsb'_append_high _ funct 21 5 (by decide)).trans <|
    (extractLsb'_append_high _ shamt 15 5 (by decide)).trans <|
    (extractLsb'_append_high _ rd 10 5 (by decide)).trans <|
    (extractLsb'_append_high _ rt 5 5 (by decide)).trans <|
    (extractLsb'_append_low _ rs 0 5 (by decide)).trans (extractLsb'_whole rs)

@[simp] theorem rt_assembleR :
    (assembleR opcode rs rt rd shamt funct).extractLsb' 16 5 = rt :=
  (extractLsb'_append_high _ funct 16 5 (by decide)).trans <|
    (extractLsb'_append_high _ shamt 10 5 (by decide)).trans <|
    (extractLsb'_append_high _ rd 5 5 (by decide)).trans <|
    (extractLsb'_append_low _ rt 0 5 (by decide)).trans (extractLsb'_whole rt)

@[simp] theorem rd_assembleR :
    (assembleR opcode rs rt rd shamt funct).extractLsb' 11 5 = rd :=
  (extractLsb'_append_high _ funct 11 5 (by decide)).trans <|
    (extractLsb'_append_high _ shamt 5 5 (by decide)).trans <|
    (extractLsb'_append_low _ rd 0 5 (by decide)).trans (extractLsb'_whole rd)

@[simp] theorem shamt_assembleR :
    (assembleR opcode rs rt rd shamt funct).extractLsb' 6 5 = shamt :=
  (extractLsb'_append_high _ funct 6 5 (by decide)).trans <|
    (extractLsb'_append_low _ shamt 0 5 (by decide)).trans (extractLsb'_whole shamt)

@[simp] theorem funct_assembleR :
    (assembleR opcode rs rt rd shamt funct).extractLsb' 0 6 = funct :=
  (extractLsb'_append_low _ funct 0 6 (by decide)).trans (extractLsb'_whole funct)

end R

section I
variable (opcode : BitVec 6) (rs rt : RegIdx) (imm16 : BitVec 16)

@[simp] theorem opcodeField_assembleI : opcodeField (assembleI opcode rs rt imm16) = opcode :=
  (opcodeField_eq _).trans <|
    (extractLsb'_append_high _ imm16 26 6 (by decide)).trans <|
    (extractLsb'_append_high _ rt 10 6 (by decide)).trans <|
    (extractLsb'_append_high _ rs 5 6 (by decide)).trans (extractLsb'_whole opcode)

@[simp] theorem rs_assembleI : (assembleI opcode rs rt imm16).extractLsb' 21 5 = rs :=
  (extractLsb'_append_high _ imm16 21 5 (by decide)).trans <|
    (extractLsb'_append_high _ rt 5 5 (by decide)).trans <|
    (extractLsb'_append_low _ rs 0 5 (by decide)).trans (extractLsb'_whole rs)

@[simp] theorem rt_assembleI : (assembleI opcode rs rt imm16).extractLsb' 16 5 = rt :=
  (extractLsb'_append_high _ imm16 16 5 (by decide)).trans <|
    (extractLsb'_append_low _ rt 0 5 (by decide)).trans (extractLsb'_whole rt)

@[simp] theorem imm16_assembleI : (assembleI opcode rs rt imm16).extractLsb' 0 16 = imm16 :=
  (extractLsb'_append_low _ imm16 0 16 (by decide)).trans (extractLsb'_whole imm16)

end I

section J
variable (opcode : BitVec 6) (target26 : BitVec 26)

@[simp] theorem opcodeField_assembleJ : opcodeField (assembleJ opcode target26) = opcode :=
  (opcodeField_eq _).trans <|
    (extractLsb'_append_high _ target26 26 6 (by decide)).trans (extractLsb'_whole opcode)

@[simp] theorem target26_assembleJ :
    (assembleJ opcode target26).extractLsb' 0 26 = target26 :=
  (extractLsb'_append_low _ target26 0 26 (by decide)).trans (extractLsb'_whole target26)

end J

/-- A slice and the slice just below it, joined. -/
theorem extractLsb'_join {n : Nat} (w : BitVec n) (lo mid a b : Nat) (h : mid = lo + b) :
    w.extractLsb' mid a ++ w.extractLsb' lo b = w.extractLsb' lo (a + b) := by
  subst h
  apply BitVec.eq_of_getLsbD_eq
  intro i hi
  simp only [BitVec.getLsbD_append, BitVec.getLsbD_extractLsb']
  by_cases hb : i < b
  · simp [hb, hi]
  · simp [hb, hi, show i - b < a by omega, show lo + b + (i - b) = lo + i by omega]

/-- Every word is assembled from its R-format fields (R81). -/
theorem assembleR_fields (w : Word) :
    assembleR (opcodeField w) (w.extractLsb' 21 5) (w.extractLsb' 16 5) (w.extractLsb' 11 5)
      (w.extractLsb' 6 5) (w.extractLsb' 0 6) = w := by
  have h1 := extractLsb'_join w 21 26 6 5 rfl
  have h2 := extractLsb'_join w 16 21 11 5 rfl
  have h3 := extractLsb'_join w 11 16 16 5 rfl
  have h4 := extractLsb'_join w 6 11 21 5 rfl
  have h5 := extractLsb'_join w 0 6 26 6 rfl
  unfold assembleR
  rw [opcodeField_eq, h1, h2, h3, h4, h5]
  exact extractLsb'_whole w

/-- Every word is assembled from its I-format fields (R82). -/
theorem assembleI_fields (w : Word) :
    assembleI (opcodeField w) (w.extractLsb' 21 5) (w.extractLsb' 16 5) (w.extractLsb' 0 16) = w := by
  have h1 := extractLsb'_join w 21 26 6 5 rfl
  have h2 := extractLsb'_join w 16 21 11 5 rfl
  have h3 := extractLsb'_join w 0 16 16 16 rfl
  unfold assembleI
  rw [opcodeField_eq, h1, h2, h3]
  exact extractLsb'_whole w

/-- Every word is assembled from its J-format fields (R83). -/
theorem assembleJ_fields (w : Word) :
    assembleJ (opcodeField w) (w.extractLsb' 0 26) = w := by
  have h1 := extractLsb'_join w 0 26 6 26 rfl
  unfold assembleJ
  rw [opcodeField_eq, h1]
  exact extractLsb'_whole w

/-- The instruction a word stands for does not depend on the pc: only the assembled J target does. -/
theorem decode_instr_pc (w p q : Word) : (decode w p).instr = (decode w q).instr := by
  simp only [decode]
  cases formatOf (opcodeField w) <;> simp only [Decoded.instr]

theorem decodeInstr_pc (w p q : Word) : decodeInstr w p = decodeInstr w q := by
  unfold decodeInstr
  rw [decode_instr_pc w p q]

/-- Decoding answers an instruction exactly when the record stands for it. -/
theorem decodeInstr_eq_ok_iff (w p : Word) (i : Instr) :
    decodeInstr w p = .ok i ↔ (decode w p).instr = some i := by
  unfold decodeInstr
  split <;> simp_all

/-- Decoding rejects a word by its own name, and only where the record stands for no instruction. -/
theorem decodeInstr_eq_error_iff (w p : Word) (e : DecodeReject) :
    decodeInstr w p = .error e ↔ (decode w p).instr = none ∧ e = .unsupportedWord w := by
  unfold decodeInstr
  split
  · next h => simp [h]
  · next h => simp [h, eq_comm]

end Sys2Proof
end

