-- ==== Sys2Proof/Laws/Memory.lean ====
section
/-! SUPPORT. The laws of memory: read after write, the canonical form is kept, cells stay inside their
bounds, and the same for whole words (spec/20_memory.md R51, R52, R60). -/

namespace Sys2Proof

/-! ## Bytes of a word -/

/-- Big-endian assembly and splitting are inverse (R51). -/
theorem wordOfBytes_byteOfWord (w : Word) :
    wordOfBytes (byteOfWord w 0) (byteOfWord w 1) (byteOfWord w 2) (byteOfWord w 3) = w := by
  apply BitVec.eq_of_getLsbD_eq
  intro i hi
  simp only [wordOfBytes, byteOfWord, BitVec.getLsbD_append, BitVec.getLsbD_extractLsb']
  by_cases h0 : i < 8
  · simp [h0]
  by_cases h1 : i < 16
  · simp [h0, show i - 8 < 8 by omega, show 8 + (i - 8) = i by omega]
  by_cases h2 : i < 24
  · simp [h0, show ¬ i - 8 < 8 by omega, show i - 8 - 8 < 8 by omega, show 16 + (i - 8 - 8) = i by omega]
  · simp [h0, show ¬ i - 8 < 8 by omega, show ¬ i - 8 - 8 < 8 by omega,
      show i - 8 - 8 - 8 < 8 by omega, show 24 + (i - 8 - 8 - 8) = i by omega]

namespace Memory

/-! ## One byte -/

/-- A byte below every cell is unlisted. -/
theorem read_of_lt_all {m : Memory} {a : Nat} (h : ∀ c ∈ m, a < c.1) : m.read a = unlisted := by
  induction m with
  | nil => rfl
  | cons c m ih =>
    obtain ⟨b, w⟩ := c
    have hb : a < b := h (b, w) (by simp)
    simp only [read]
    rw [if_neg (by omega)]
    exact ih fun c hc => h c (by simp [hc])

/-- Reading through `consCell` above the rest. -/
theorem read_consCell {m : Memory} {a : Nat} (h : ∀ c ∈ m, a < c.1) (v : Byte) (b : Nat) :
    (consCell a v m).read b = if b = a then v else m.read b := by
  unfold consCell
  split
  · next hv =>
    split
    · next e => subst e; rw [read_of_lt_all h, hv]
    · rfl
  · rfl

theorem wf_tail {c : Host.Cell} {m : Memory} (h : wf (c :: m)) : m.wf :=
  ⟨(List.pairwise_cons.1 h.1).2, fun d hd => h.2 d (by simp [hd])⟩

theorem wf_head_lt {c : Host.Cell} {m : Memory} (h : wf (c :: m)) : ∀ d ∈ m, c.1 < d.1 :=
  (List.pairwise_cons.1 h.1).1

/-- Read after write, the same place and every other. -/
theorem read_write {m : Memory} (h : m.wf) (a : Nat) (v : Byte) (b : Nat) :
    (m.write a v).read b = if b = a then v else m.read b := by
  induction m with
  | nil => exact read_consCell (by simp) v b
  | cons c m ih =>
    obtain ⟨x, w⟩ := c
    have hx := wf_head_lt h
    simp only at hx
    simp only [write]
    split
    · next hlt =>
      refine read_consCell ?_ v b
      intro c hc
      rcases List.mem_cons.1 hc with rfl | hc
      · exact hlt
      · exact hlt.trans (hx c hc)
    split
    · next e =>
      subst e
      rw [read_consCell hx]
      simp only [read]
      split <;> rfl
    · simp only [read, ih (wf_tail h)]
      split <;> split <;> simp_all

/-- The cells of a write: those of the memory, and the one written. -/
theorem mem_write {m : Memory} {a : Nat} {v : Byte} {c : Host.Cell} (h : c ∈ m.write a v) :
    (c = (a, v) ∧ v ≠ unlisted) ∨ c ∈ m := by
  induction m with
  | nil =>
    simp only [write, consCell] at h
    split at h <;> simp_all
  | cons d m ih =>
    obtain ⟨x, w⟩ := d
    simp only [write, consCell] at h
    split at h
    · split at h
      · exact .inr h
      · rcases List.mem_cons.1 h with e | h
        · exact .inl ⟨e, ‹_›⟩
        · exact .inr h
    split at h
    · split at h
      · exact .inr (by simp [h])
      · rcases List.mem_cons.1 h with e | h
        · exact .inl ⟨e, ‹_›⟩
        · exact .inr (by simp [h])
    · rcases List.mem_cons.1 h with e | h
      · exact .inr (by simp [e])
      · rcases ih h with e | h
        · exact .inl e
        · exact .inr (by simp [h])

/-- `consCell` above the rest keeps the canonical form. -/
theorem wf_consCell {m : Memory} {a : Nat} (h : m.wf) (ha : ∀ c ∈ m, a < c.1) (v : Byte) :
    (consCell a v m).wf := by
  unfold consCell
  split
  · exact h
  · refine ⟨List.pairwise_cons.2 ⟨ha, h.1⟩, ?_⟩
    intro c hc
    rcases List.mem_cons.1 hc with rfl | hc
    · assumption
    · exact h.2 c hc

/-- A write keeps the canonical form. -/
theorem wf_write {m : Memory} (h : m.wf) (a : Nat) (v : Byte) : (m.write a v).wf := by
  induction m with
  | nil => exact wf_consCell h (by simp) v
  | cons d m ih =>
    obtain ⟨x, w⟩ := d
    have hx := wf_head_lt h
    simp only at hx
    simp only [write]
    split
    · next hlt =>
      refine wf_consCell h ?_ v
      intro c hc
      rcases List.mem_cons.1 hc with rfl | hc
      · exact hlt
      · exact hlt.trans (hx c hc)
    split
    · next e => subst e; exact wf_consCell (wf_tail h) hx v
    · have ht := ih (wf_tail h)
      refine ⟨List.pairwise_cons.2 ⟨?_, ht.1⟩, ?_⟩
      · intro c hc
        rcases mem_write hc with ⟨rfl, -⟩ | hc
        · simp only; omega
        · exact hx c hc
      · intro c hc
        rcases List.mem_cons.1 hc with rfl | hc
        · exact h.2 (x, w) (by simp)
        · exact ht.2 c hc

/-- A write inside bounds keeps every cell inside them. -/
theorem within_write {m : Memory} {lo hi a : Nat} (h : m.within lo hi) (ha : lo ≤ a ∧ a < hi)
    (v : Byte) : (m.write a v).within lo hi := by
  intro c hc
  rcases mem_write hc with ⟨rfl, -⟩ | hc
  · exact ha
  · exact h c hc

/-! ## One word -/

/-- A word write changes exactly the bytes `a` to `a+3`, each to its byte of the word (R51, R52). -/
theorem read_writeWord {m : Memory} (h : m.wf) (a : Nat) (w : Word) (b : Nat) :
    (m.writeWord a w).read b =
      if a ≤ b ∧ b < a + 4 then byteOfWord w (b - a) else m.read b := by
  have h0 := wf_write h a (byteOfWord w 0)
  have h1 := wf_write h0 (a + 1) (byteOfWord w 1)
  have h2 := wf_write h1 (a + 2) (byteOfWord w 2)
  simp only [writeWord, read_write h2, read_write h1, read_write h0, read_write h]
  by_cases e3 : b = a + 3
  · subst e3; simp
  by_cases e2 : b = a + 2
  · subst e2; simp
  by_cases e1 : b = a + 1
  · subst e1; simp
  by_cases e0 : b = a
  · subst e0; simp
  · rw [if_neg e3, if_neg e2, if_neg e1, if_neg e0, if_neg (by omega)]

theorem wf_writeWord {m : Memory} (h : m.wf) (a : Nat) (w : Word) : (m.writeWord a w).wf :=
  wf_write (wf_write (wf_write (wf_write h _ _) _ _) _ _) _ _

theorem within_writeWord {m : Memory} {lo hi a : Nat} (h : m.within lo hi)
    (ha : lo ≤ a ∧ a + 4 ≤ hi) (w : Word) : (m.writeWord a w).within lo hi :=
  within_write (within_write (within_write (within_write h ⟨by omega, by omega⟩ _)
    ⟨by omega, by omega⟩ _) ⟨by omega, by omega⟩ _) ⟨by omega, by omega⟩ _

/-- A word written is read back as the same word (R51). -/
theorem readWord_writeWord_same {m : Memory} (h : m.wf) (a : Nat) (w : Word) :
    (m.writeWord a w).readWord a = w := by
  have k : ∀ j, j < 4 → (m.writeWord a w).read (a + j) = byteOfWord w j := fun j hj => by
    rw [read_writeWord h, if_pos (by omega), Nat.add_sub_cancel_left]
  have k0 := k 0 (by omega)
  simp only [Nat.add_zero] at k0
  rw [readWord, k0, k 1 (by omega), k 2 (by omega), k 3 (by omega)]
  exact wordOfBytes_byteOfWord w

/-- A word that does not overlap the one written is unchanged (R52). -/
theorem readWord_writeWord_disjoint {m : Memory} (h : m.wf) {a b : Nat} (w : Word)
    (hab : b + 4 ≤ a ∨ a + 4 ≤ b) : (m.writeWord a w).readWord b = m.readWord b := by
  have k : ∀ j, j < 4 → (m.writeWord a w).read (b + j) = m.read (b + j) := fun j hj => by
    rw [read_writeWord h, if_neg (by omega)]
  have k0 := k 0 (by omega)
  simp only [Nat.add_zero] at k0
  simp only [readWord, k0, k 1 (by omega), k 2 (by omega), k 3 (by omega)]

/-! ## The image -/

/-- The empty memory, that of `State.reset`, has the canonical form. -/
theorem wf_nil : wf ([] : Memory) := ⟨List.Pairwise.nil, by simp⟩

theorem wf_loadImage {m : Memory} (h : m.wf) (a : Nat) (ws : List Word) : (m.loadImage a ws).wf := by
  induction ws generalizing m a with
  | nil => exact h
  | cons w ws ih => exact ih (wf_writeWord h a w) (a + 4)

theorem within_loadImage {m : Memory} {lo hi a : Nat} (ws : List Word) (h : m.within lo hi)
    (ha : lo ≤ a ∧ a + 4 * ws.length ≤ hi) : (m.loadImage a ws).within lo hi := by
  induction ws generalizing m a with
  | nil => exact h
  | cons w ws ih =>
    simp only [List.length_cons] at ha
    exact ih (within_writeWord h ⟨ha.1, by omega⟩ w) ⟨by omega, by omega⟩

/-- A byte outside the image is as it was before the load. -/
theorem read_loadImage_outside {m : Memory} (h : m.wf) {a b : Nat} (ws : List Word)
    (hb : b < a ∨ a + 4 * ws.length ≤ b) : (m.loadImage a ws).read b = m.read b := by
  induction ws generalizing m a with
  | nil => rfl
  | cons w ws ih =>
    simp only [List.length_cons] at hb
    rw [loadImage, ih (wf_writeWord h a w) (by omega), read_writeWord h, if_neg (by omega)]

end Memory

end Sys2Proof
end

