-- ==== Sys2Proof/Laws/State.lean ====
section
/-! SUPPORT. One lemma per field per update of `State`, true by rfl or by one case split, so that no
later proof unfolds a record update; and what a commit does to each field, said once. -/

namespace Sys2Proof

/-- A register reads as the value last written to it; every other register is as before. -/
theorem Regs.get_set (x : Regs) (r d : RegIdx) (v : Word) :
    (x.set d v).get r = if r = d then v else x.get r := by
  by_cases h : r = d
  · subst h
    simp [Regs.get, Regs.set, Vector.get_eq_getElem]
  · have hne : d.toNat ≠ r.toNat := fun e => h (BitVec.eq_of_toNat_eq e.symm)
    simp [Regs.get, Regs.set, Vector.get_eq_getElem, h, hne]

namespace Machine

variable (s : State) (r d : RegIdx) (v w a : Word) (f : Fault) (c : Commit)

/-! ## setReg -/

@[simp] theorem setReg_pc : (s.setReg r v).pc = s.pc := rfl
@[simp] theorem setReg_mem : (s.setReg r v).mem = s.mem := rfl
@[simp] theorem setReg_run : (s.setReg r v).run = s.run := rfl
@[simp] theorem setReg_stopReq : (s.setReg r v).stopReq = s.stopReq := rfl
@[simp] theorem setReg_cfg : (s.setReg r v).cfg = s.cfg := rfl

@[simp] theorem reg_setReg_same : (s.setReg d v).reg d = v := by
  simp [State.reg, State.setReg, Regs.get_set]

theorem reg_setReg_ne (h : r ≠ d) : (s.setReg d v).reg r = s.reg r := by
  simp [State.reg, State.setReg, Regs.get_set, h]

/-! ## setMemWord -/

@[simp] theorem setMemWord_regs : (s.setMemWord a v).regs = s.regs := rfl
@[simp] theorem setMemWord_pc : (s.setMemWord a v).pc = s.pc := rfl
@[simp] theorem setMemWord_mem : (s.setMemWord a v).mem = s.mem.writeWord a.toNat v := rfl
@[simp] theorem setMemWord_run : (s.setMemWord a v).run = s.run := rfl
@[simp] theorem setMemWord_stopReq : (s.setMemWord a v).stopReq = s.stopReq := rfl
@[simp] theorem setMemWord_cfg : (s.setMemWord a v).cfg = s.cfg := rfl

/-! ## takeFault -/

@[simp] theorem takeFault_regs : (s.takeFault f).regs = s.regs := rfl
@[simp] theorem takeFault_reg : (s.takeFault f).reg r = s.reg r := rfl
@[simp] theorem takeFault_pc : (s.takeFault f).pc = s.pc := rfl
@[simp] theorem takeFault_mem : (s.takeFault f).mem = s.mem := rfl
@[simp] theorem takeFault_run : (s.takeFault f).run = .haltedFault f := rfl
@[simp] theorem takeFault_stopReq : (s.takeFault f).stopReq = s.stopReq := rfl
@[simp] theorem takeFault_cfg : (s.takeFault f).cfg = s.cfg := rfl
@[simp] theorem takeFault_fetch : (s.takeFault f).fetch = s.fetch := rfl

/-! ## haltNormal -/

@[simp] theorem haltNormal_regs : s.haltNormal.regs = s.regs := rfl
@[simp] theorem haltNormal_pc : s.haltNormal.pc = s.pc := rfl
@[simp] theorem haltNormal_mem : s.haltNormal.mem = s.mem := rfl
@[simp] theorem haltNormal_run : s.haltNormal.run = .haltedNormal := rfl
@[simp] theorem haltNormal_stopReq : s.haltNormal.stopReq = s.stopReq := rfl
@[simp] theorem haltNormal_cfg : s.haltNormal.cfg = s.cfg := rfl

/-! ## sampled -/

@[simp] theorem sampled_regs : s.sampled.regs = s.regs := rfl
@[simp] theorem sampled_reg : s.sampled.reg r = s.reg r := rfl
@[simp] theorem sampled_pc : s.sampled.pc = s.pc := rfl
@[simp] theorem sampled_mem : s.sampled.mem = s.mem := rfl
@[simp] theorem sampled_run : s.sampled.run = s.run := rfl
@[simp] theorem sampled_stopReq : s.sampled.stopReq = s.stopReq.tail := rfl
@[simp] theorem sampled_cfg : s.sampled.cfg = s.cfg := rfl
@[simp] theorem sampled_fetch : s.sampled.fetch = s.fetch := rfl

/-! ## commit -/

@[simp] theorem commit_pc : (s.commit c).pc = c.nextPC := rfl

@[simp] theorem commit_run : (s.commit c).run = s.run := by
  rcases c with ⟨n, _ | ⟨d, v⟩, _ | ⟨a, w⟩⟩ <;> rfl

@[simp] theorem commit_stopReq : (s.commit c).stopReq = s.stopReq := by
  rcases c with ⟨n, _ | ⟨d, v⟩, _ | ⟨a, w⟩⟩ <;> rfl

@[simp] theorem commit_cfg : (s.commit c).cfg = s.cfg := by
  rcases c with ⟨n, _ | ⟨d, v⟩, _ | ⟨a, w⟩⟩ <;> rfl

/-- Without a store the commit leaves memory alone. -/
theorem commit_mem_of_no_store (h : c.store = none) : (s.commit c).mem = s.mem := by
  rcases c with ⟨n, _ | ⟨d, v⟩, _ | ⟨a, w⟩⟩ <;> simp_all [State.commit, State.writeReg?, State.store?]

/-- With a store the commit writes exactly that word. -/
theorem commit_mem_of_store (h : c.store = some (a, w)) :
    (s.commit c).mem = s.mem.writeWord a.toNat w := by
  rcases c with ⟨n, _ | ⟨d, v⟩, _ | ⟨a, w⟩⟩ <;>
    simp_all [State.commit, State.writeReg?, State.store?]

/-- Without a register write the commit leaves the registers alone. -/
theorem commit_regs_of_no_reg (h : c.reg = none) : (s.commit c).regs = s.regs := by
  rcases c with ⟨n, _ | ⟨d, v⟩, _ | ⟨a, w⟩⟩ <;> simp_all [State.commit, State.writeReg?, State.store?]

/-- With a register write the destination holds the value and every other register is as before. -/
theorem commit_reg_of_reg (h : c.reg = some (d, v)) :
    (s.commit c).reg r = if r = d then v else s.reg r := by
  rcases c with ⟨n, _ | ⟨d, v⟩, _ | ⟨a, w⟩⟩ <;>
    simp_all [State.commit, State.writeReg?, State.store?, State.reg, State.setReg, State.setMemWord,
      Regs.get_set]

end Machine

end Sys2Proof
end

