-- ==== Sys2Proof/Laws/Ops.lean ====
section
/-! SUPPORT. The address checks and the fetch in terms of numbers, and the bit fields of addresses, said
once; later proofs cite these and never unfold a check. -/

namespace Sys2Proof.Machine

/-- The low two bits are zero exactly when the address is a multiple of 4. -/
theorem aligned_iff (a : Word) : aligned a = true ↔ a.toNat % 4 = 0 := by
  simp only [aligned, beq_iff_eq, ← BitVec.toNat_inj, BitVec.extractLsb'_toNat,
    Nat.shiftRight_zero]
  simp

/-- `MemOK` in numbers (R56). -/
theorem memOK_iff (c : Params) (a : Word) :
    memOK c a = true ↔ a.toNat % 4 = 0 ∧ c.dataLo ≤ a.toNat ∧ a.toNat < c.dataHi := by
  simp only [memOK, Bool.and_eq_true, decide_eq_true_eq, aligned_iff, and_assoc]

/-- `FetchOK` in numbers (R57). -/
theorem fetchOK_iff (c : Params) (p : Word) :
    fetchOK c p = true ↔ p.toNat % 4 = 0 ∧ c.base ≤ p.toNat ∧ p.toNat < c.top := by
  simp only [fetchOK, Bool.and_eq_true, decide_eq_true_eq, aligned_iff, and_assoc]

/-- When a fetch succeeds, and with what (R57, R196). -/
theorem fetch_eq_some_iff (s : State) (w : Word) :
    s.fetch = some w ↔ fetchOK s.cfg s.pc = true ∧ w = s.memWord s.pc := by
  unfold State.fetch
  split
  · next h => simp [h, eq_comm]
  · next h => simp [h]

/-- When a fetch fails (R57, R196). -/
theorem fetch_eq_none_iff (s : State) : s.fetch = none ↔ fetchOK s.cfg s.pc = false := by
  unfold State.fetch
  split <;> simp_all

/-- The fetch reads only the pc, the memory and the parameters. -/
theorem fetch_congr {s t : State} (hp : t.pc = s.pc) (hm : t.mem = s.mem) (hc : t.cfg = s.cfg) :
    t.fetch = s.fetch := by
  simp only [State.fetch, State.memWord, hp, hm, hc]

/-- The data window lies inside the memory array, above the code segment (R50, R55). -/
theorem window_inside (c : Params) : c.base ≤ c.dataLo ∧ c.dataLo ≤ c.dataHi ∧ c.dataHi = c.top := by
  refine ⟨?_, ?_, rfl⟩ <;> simp only [Params.dataLo, Params.dataHi, Params.top] <;> omega

/-- A word that passed `MemOK` lies wholly inside the window, where the bounds are multiples of 4. -/
theorem word_inside_window {c : Params} (hc : c.wf) {a : Word} (h : memOK c a = true) :
    c.dataLo ≤ a.toNat ∧ a.toNat + 4 ≤ c.dataHi := by
  obtain ⟨h4, hlo, hhi⟩ := (memOK_iff c a).1 h
  obtain ⟨hb, -, -, -⟩ := hc
  refine ⟨hlo, ?_⟩
  simp only [Params.dataHi, Params.top] at hhi ⊢
  omega

end Sys2Proof.Machine
end

