-- ==== Sys2Proof/Laws/Step.lean ====
section
/-! SUPPORT. What an instruction and a step can do, said once: every invariant and frame is derived
from these inversion lemmas without unfolding `exec` or `step` again. -/

namespace Sys2Proof.Machine

/-- Every instruction answers a next state of one of four shapes: a commit of the pc alone, a commit of
the pc and one register, the commit of a store (`sw` only, at an address that passed `MemOK`), or the
entry of a MemoryAccessFault (`lw` and `sw` only, at an address that failed it). -/
theorem exec_cases (i : Instr) (s : State) :
    (∃ n, exec i s = .next (s.commit { nextPC := n })) ∨
    (∃ n d v, exec i s = .next (s.commit { nextPC := n, reg := some (d, v) })) ∨
    (∃ rs rt imm16, i = .sw rs rt imm16 ∧ memOK s.cfg (s.ea rs imm16) = true ∧
      exec i s = .next (s.commit
        { nextPC := s.pc + 4, store := some (s.ea rs imm16, s.reg rt) })) ∨
    (∃ rs rt imm16, (i = .lw rs rt imm16 ∨ i = .sw rs rt imm16) ∧
      memOK s.cfg (s.ea rs imm16) = false ∧
      exec i s = .next (s.takeFault (.memoryAccessFault s.pc (s.ea rs imm16)))) := by
  cases i with
  | j t => exact .inl ⟨_, rfl⟩
  | jr rs rt rd shamt => exact .inl ⟨_, rfl⟩
  | beq rs rt imm16 => exact .inl ⟨_, rfl⟩
  | bne rs rt imm16 => exact .inl ⟨_, rfl⟩
  | lw rs rt imm16 =>
    cases h : memOK s.cfg (s.ea rs imm16) with
    | true => exact .inr (.inl ⟨s.pc + 4, rt, s.memWord (s.ea rs imm16), by simp only [exec, execLw, h, if_true]; rfl⟩)
    | false => exact .inr (.inr (.inr ⟨rs, rt, imm16, .inl rfl, h, by simp [exec, execLw, h]⟩))
  | sw rs rt imm16 =>
    cases h : memOK s.cfg (s.ea rs imm16) with
    | true => exact .inr (.inr (.inl ⟨rs, rt, imm16, rfl, h, by simp only [exec, execSw, h, if_true]; rfl⟩))
    | false => exact .inr (.inr (.inr ⟨rs, rt, imm16, .inr rfl, h, by simp [exec, execSw, h]⟩))
  | _ => exact .inr (.inl ⟨_, _, _, rfl⟩)

/-- A running core's step, in the order of R226: stop, fetch fault, unsupported word, instruction. -/
theorem step_running {s : State} (h : s.run = .running) :
    (s.stopAsserted = true ∧ step s = .next s.sampled.haltNormal) ∨
    (s.stopAsserted = false ∧ s.fetch = none ∧
      step s = .next (s.sampled.takeFault (.fetchFault s.pc))) ∨
    (∃ w, s.stopAsserted = false ∧ s.fetch = some w ∧
      decodeInstr w s.pc = .error (.unsupportedWord w) ∧
      step s = .next (s.sampled.takeFault (.unsupportedInstruction w s.pc))) ∨
    (∃ w i, s.stopAsserted = false ∧ s.fetch = some w ∧ decodeInstr w s.pc = .ok i ∧
      step s = exec i s.sampled) := by
  have e : step s = runningStep s.stopAsserted s.sampled := by simp [step, cycle, h]
  cases hs : s.stopAsserted with
  | true => exact .inl ⟨rfl, by simp [e, runningStep, hs]⟩
  | false =>
    cases hf : s.fetch with
    | none => exact .inr (.inl ⟨rfl, rfl, by simp [e, runningStep, hs, hf]⟩)
    | some w =>
      cases hd : decodeInstr w s.pc with
      | error r =>
        obtain ⟨-, rfl⟩ := (decodeInstr_eq_error_iff w s.pc r).1 hd
        exact .inr (.inr (.inl ⟨w, rfl, rfl, hd, by simp [e, runningStep, hs, hf, hd]⟩))
      | ok i => exact .inr (.inr (.inr ⟨w, i, rfl, rfl, hd, by simp [e, runningStep, hs, hf, hd]⟩))

/-- A halted core keeps its state (R199). -/
theorem step_halted {s : State} (h : s.run ≠ .running) : step s = .next s := by
  unfold step cycle
  split <;> simp_all

end Sys2Proof.Machine
end

