-- ==== Sys2Proof/Laws/Frames.lean ====
section
/-! SUPPORT. The frame of each shared operation, said once in the terms of Safety.lean: what the commit
of a result, of a pc alone and of a store, and the entry of a fault, do and leave unchanged; and the
unfolding of a run by one step. -/

namespace Sys2Proof.Machine

/-- The commit of a result writes the destination, advances the pc and does nothing else (R130). -/
theorem commitResult_computesInto (s : State) (d : RegIdx) (v : Word) :
    ComputesInto s (s.commitResult d v) d v := by
  refine ⟨⟨?_, ?_⟩, rfl, ?_, ?_, ?_, ?_⟩
  · rw [State.commitResult, commit_reg_of_reg _ _ _ _ _ rfl, if_pos rfl]
  · intro r hr
    rw [State.commitResult, commit_reg_of_reg _ _ _ _ _ rfl, if_neg hr]
  · intro a
    rw [State.commitResult, commit_mem_of_no_store _ _ rfl]
  all_goals simp [State.commitResult]

/-- The commit of a pc alone moves the pc and does nothing else. -/
theorem commit_onlyMovesPc (s : State) (n : Word) : OnlyMovesPc s (s.commit { nextPC := n }) n := by
  refine ⟨rfl, ?_, ?_, ?_, ?_, ?_⟩
  · intro r
    rw [State.reg, commit_regs_of_no_reg _ _ rfl]
    rfl
  · intro a
    rw [commit_mem_of_no_store _ _ rfl]
  all_goals simp

/-- The commit of a store replaces exactly that word of a canonical memory, and no register. -/
theorem commit_storesOnly {s : State} (h : s.mem.wf) (n a v : Word) :
    StoresOnly s (s.commit { nextPC := n, store := some (a, v) }) a.toNat v ∧
      SameRegs s (s.commit { nextPC := n, store := some (a, v) }) := by
  refine ⟨⟨?_, ?_⟩, ?_⟩
  · rw [commit_mem_of_store _ _ _ _ rfl, Memory.readWord_writeWord_same h]
  · intro b hb
    rw [commit_mem_of_store _ _ _ _ rfl, Memory.read_writeWord h, if_neg hb]
  · intro r
    rw [State.reg, commit_regs_of_no_reg _ _ rfl]
    rfl

/-- The entry of a fault records it in the run state and does nothing else (R224). -/
theorem takeFault_takesFault (s : State) (f : Fault) : TakesFault s (s.takeFault f) f :=
  ⟨rfl, rfl, fun _ => rfl, fun _ => rfl, rfl, rfl⟩

/-- A run of `n + 1` steps is a step and a run of `n` steps. -/
theorem run_succ {s t : State} (n : Nat) (h : step s = .next t) :
    Sys2Proof.core.run (n + 1) s = Sys2Proof.core.run n t := by
  have h' : Sys2Proof.core.step s = .next t := h
  simp only [Host.Core.run, h']

end Sys2Proof.Machine
end

