-- ==== Sys2Proof/Laws/PerInstr.lean ====
section
/-! SUPPORT. Facts stated for every instruction, one lemma per constructor. The family
`SelectorFields`: the encoded word of an instruction has the format and the operation tag of that
instruction (spec/40_decoder.md R116). -/

namespace Sys2Proof.Laws.SelectorFields

/-- The decoder reads the instruction's own operation tag from its word, at any pc. -/
def Statement (i : Instr) : Prop := ∀ pc, (decode (encode i) pc).op = i.op

/-- An R-format word decodes to the operation its funct selects. -/
theorem op_assembleR (rs rt rd : RegIdx) (shamt : BitVec 5) (funct : BitVec 6) (pc : Word) :
    (decode (assembleR 0 rs rt rd shamt funct) pc).op = lookupOp .r funct := by
  simp [decode, formatOf, Decoded.op]

/-- An I-format word decodes to the operation its opcode selects. -/
theorem op_assembleI {opcode : BitVec 6} (h : formatOf opcode = .i) (rs rt : RegIdx)
    (imm16 : BitVec 16) (pc : Word) :
    (decode (assembleI opcode rs rt imm16) pc).op = lookupOp .i opcode := by
  simp [decode, h, Decoded.op]

/-- A J-format word decodes to the operation its opcode selects. -/
theorem op_assembleJ {opcode : BitVec 6} (h : formatOf opcode = .j) (target26 : BitVec 26)
    (pc : Word) : (decode (assembleJ opcode target26) pc).op = lookupOp .j opcode := by
  simp [decode, h, Decoded.op]

theorem sll (rs rt rd : RegIdx) (shamt : BitVec 5) : Statement (.sll rs rt rd shamt) :=
  fun pc => (op_assembleR rs rt rd shamt _ pc).trans rfl
theorem srl (rs rt rd : RegIdx) (shamt : BitVec 5) : Statement (.srl rs rt rd shamt) :=
  fun pc => (op_assembleR rs rt rd shamt _ pc).trans rfl
theorem jr (rs rt rd : RegIdx) (shamt : BitVec 5) : Statement (.jr rs rt rd shamt) :=
  fun pc => (op_assembleR rs rt rd shamt _ pc).trans rfl
theorem addu (rs rt rd : RegIdx) (shamt : BitVec 5) : Statement (.addu rs rt rd shamt) :=
  fun pc => (op_assembleR rs rt rd shamt _ pc).trans rfl
theorem subu (rs rt rd : RegIdx) (shamt : BitVec 5) : Statement (.subu rs rt rd shamt) :=
  fun pc => (op_assembleR rs rt rd shamt _ pc).trans rfl
theorem and (rs rt rd : RegIdx) (shamt : BitVec 5) : Statement (.and rs rt rd shamt) :=
  fun pc => (op_assembleR rs rt rd shamt _ pc).trans rfl
theorem or (rs rt rd : RegIdx) (shamt : BitVec 5) : Statement (.or rs rt rd shamt) :=
  fun pc => (op_assembleR rs rt rd shamt _ pc).trans rfl
theorem xor (rs rt rd : RegIdx) (shamt : BitVec 5) : Statement (.xor rs rt rd shamt) :=
  fun pc => (op_assembleR rs rt rd shamt _ pc).trans rfl
theorem nor (rs rt rd : RegIdx) (shamt : BitVec 5) : Statement (.nor rs rt rd shamt) :=
  fun pc => (op_assembleR rs rt rd shamt _ pc).trans rfl
theorem slt (rs rt rd : RegIdx) (shamt : BitVec 5) : Statement (.slt rs rt rd shamt) :=
  fun pc => (op_assembleR rs rt rd shamt _ pc).trans rfl
theorem j (target26 : BitVec 26) : Statement (.j target26) :=
  fun pc => (op_assembleJ (by decide) target26 pc).trans rfl
theorem jal (target26 : BitVec 26) : Statement (.jal target26) :=
  fun pc => (op_assembleJ (by decide) target26 pc).trans rfl
theorem beq (rs rt : RegIdx) (imm16 : BitVec 16) : Statement (.beq rs rt imm16) :=
  fun pc => (op_assembleI (by decide) rs rt imm16 pc).trans rfl
theorem bne (rs rt : RegIdx) (imm16 : BitVec 16) : Statement (.bne rs rt imm16) :=
  fun pc => (op_assembleI (by decide) rs rt imm16 pc).trans rfl
theorem addiu (rs rt : RegIdx) (imm16 : BitVec 16) : Statement (.addiu rs rt imm16) :=
  fun pc => (op_assembleI (by decide) rs rt imm16 pc).trans rfl
theorem andi (rs rt : RegIdx) (imm16 : BitVec 16) : Statement (.andi rs rt imm16) :=
  fun pc => (op_assembleI (by decide) rs rt imm16 pc).trans rfl
theorem ori (rs rt : RegIdx) (imm16 : BitVec 16) : Statement (.ori rs rt imm16) :=
  fun pc => (op_assembleI (by decide) rs rt imm16 pc).trans rfl
theorem lui (rs rt : RegIdx) (imm16 : BitVec 16) : Statement (.lui rs rt imm16) :=
  fun pc => (op_assembleI (by decide) rs rt imm16 pc).trans rfl
theorem lw (rs rt : RegIdx) (imm16 : BitVec 16) : Statement (.lw rs rt imm16) :=
  fun pc => (op_assembleI (by decide) rs rt imm16 pc).trans rfl
theorem sw (rs rt : RegIdx) (imm16 : BitVec 16) : Statement (.sw rs rt imm16) :=
  fun pc => (op_assembleI (by decide) rs rt imm16 pc).trans rfl

end Sys2Proof.Laws.SelectorFields
end

