-- ==== Sys2Proof/Tests/Slice0.lean ====
section
/-! SUPPORT. Tests: expected values are those of spec/95_test_vectors.md (each test names its row) or are
worked out by hand from a rule; and for every statement with hypotheses a witness that meets them. -/

namespace Sys2Proof.Tests

open Sys2Proof.Machine

/-! ## Helpers -/

/-- A running default machine at a pc with some registers set. -/
def machineAt (pc : Word) (xs : List (RegIdx × Word)) : State :=
  xs.foldl (fun s x => s.setReg x.1 x.2) { State.reset with pc := pc }

/-- The check `p` holds of the state the next step leads to, with `word` at the pc. -/
def afterWord (word : Nat) (s : State) (p : State → Bool) : Bool :=
  match step (s.withFetchWord 32 word) with
  | .next t => p t
  | .fault _ => false
  | .refused _ => false

/-! ## Well-formedness: each check refuses an ill-formed term -/

theorem test_default_params_wf : Params.default.wf := by decide
theorem test_base_not_multiple_of_4 : ¬ Params.wf { Params.default with base := 0x00400002 } := by decide
theorem test_empty_code_segment : ¬ Params.wf { Params.default with ni := 0 } := by decide
theorem test_empty_data_segment : ¬ Params.wf { Params.default with nd := 0 } := by decide
theorem test_top_above_2_31 : ¬ Params.wf { Params.default with base := 0x80000000 } := by decide
theorem test_image_too_long :
    ¬ Params.imageFits { base := 0, ni := 1, nd := 1, spIndex := 29 } [0, 0] := by decide

/-! ## Decoding: words of spec/95_test_vectors.md and spec/41 to 44 -/

theorem test_decode_sll : decodeTableWord 32 0x00221FC0 = some (.sll 1 2 3 31) := by decide
theorem test_decode_srl : decodeTableWord 32 0x00042F02 = some (.srl 0 4 5 28) := by decide
theorem test_decode_jr : decodeTableWord 32 0x03E0F808 = some (.jr 31 0 31 0) := by decide
theorem test_decode_addu : decodeTableWord 32 0x00221821 = some (.addu 1 2 3 0) := by decide
theorem test_decode_subu : decodeTableWord 32 0x00222023 = some (.subu 1 2 4 0) := by decide
theorem test_decode_and : decodeTableWord 32 0x00221824 = some (.and 1 2 3 0) := by decide
theorem test_decode_or : decodeTableWord 32 0x00221825 = some (.or 1 2 3 0) := by decide
theorem test_decode_xor : decodeTableWord 32 0x00221826 = some (.xor 1 2 3 0) := by decide
theorem test_decode_nor : decodeTableWord 32 0x00401827 = some (.nor 2 0 3 0) := by decide
theorem test_decode_slt : decodeTableWord 32 0x0080102A = some (.slt 4 0 2 0) := by decide
theorem test_decode_j : decodeTableWord 32 0x08100008 = some (.j 0x0100008) := by decide
theorem test_decode_jal : decodeTableWord 32 0x0C100004 = some (.jal 0x0100004) := by decide
theorem test_decode_beq : decodeTableWord 32 0x10220003 = some (.beq 1 2 0x0003) := by decide
theorem test_decode_bne : decodeTableWord 32 0x1520FFFA = some (.bne 9 0 0xFFFA) := by decide
theorem test_decode_addiu : decodeTableWord 32 0x2529FFFF = some (.addiu 9 9 0xFFFF) := by decide
theorem test_decode_andi : decodeTableWord 32 0x3022FF0F = some (.andi 1 2 0xFF0F) := by decide
theorem test_decode_ori : decodeTableWord 32 0x3402FFFF = some (.ori 0 2 0xFFFF) := by decide
theorem test_decode_lui : decodeTableWord 32 0x3C220040 = some (.lui 1 2 0x0040) := by decide
theorem test_decode_lw : decodeTableWord 32 0x8FA3FFFC = some (.lw 29 3 0xFFFC) := by decide
theorem test_decode_sw : decodeTableWord 32 0xAFA2FFFC = some (.sw 29 2 0xFFFC) := by decide

/-- V1: the trapping add's funct is unsupported, its raw fields are decoded all the same (R117). -/
theorem test_decode_unsupported_funct :
    decode 0x00000020 0 = .r 0 0 0 0 0 0x20 .unsupported := by decide
/-- V1: an unsupported opcode is I-format with a sign-extended immediate (R85). -/
theorem test_decode_unsupported_opcode :
    decode 0xFFFFFFFF 0 = .i 0x3F 31 31 0xFFFF 0xFFFFFFFF .unsupported := by decide
/-- V1: a zero-extended immediate. -/
theorem test_decode_ori_record :
    decode 0x3402FFFF 0 = .i 0x0D 0 2 0xFFFF 0x0000FFFF .ori := by decide
/-- V1: the top four bits of the target come from the incremented pc. -/
theorem test_decode_jump_target_carry :
    decode 0x08000001 0xEFFFFFFC = .j 0x02 0x0000001 0xF0000004 .j := by decide
theorem test_decode_truncated_bytes : decodeBytes 0 [0, 0, 0] = .error .truncated := by decide

/-! ## Instructions: rows of V2 to V7, one step each -/

theorem test_addu_wraps : afterWord 0x00221821 (machineAt 0x00400000 [(1, 0xFFFFFFFF), (2, 1)])
    (fun t => t.reg 3 == 0 && t.pc == 0x00400004) = true := by decide
theorem test_addu_same_register : afterWord 0x00210821 (machineAt 0x00400000 [(1, 0x40000001)])
    (fun t => t.reg 1 == 0x80000002) = true := by decide
theorem test_addu_register_zero : afterWord 0x00220021 (machineAt 0x00400000 [(1, 5), (2, 7)])
    (fun t => t.reg 0 == 12) = true := by decide
theorem test_subu_order : afterWord 0x00221823 (machineAt 0x00400000 [(1, 0xE), (2, 0xFFFF)])
    (fun t => t.reg 3 == 0xFFFF000F && t.pc == 0x00400004) = true := by decide
theorem test_and : afterWord 0x00221824
    (machineAt 0x00400000 [(1, 0xFF00FF00), (2, 0x0FF00FF0)])
    (fun t => t.reg 3 == 0x0F000F00) = true := by decide
theorem test_or : afterWord 0x00221825
    (machineAt 0x00400000 [(1, 0xFF00FF00), (2, 0x0FF00FF0)])
    (fun t => t.reg 3 == 0xFFF0FFF0) = true := by decide
theorem test_xor : afterWord 0x00221826
    (machineAt 0x00400000 [(1, 0xFF00FF00), (2, 0x0FF00FF0)])
    (fun t => t.reg 3 == 0xF0F0F0F0) = true := by decide
theorem test_nor : afterWord 0x00221827
    (machineAt 0x00400000 [(1, 0xFF00FF00), (2, 0x0FF00FF0)])
    (fun t => t.reg 3 == 0x000F000F) = true := by decide
theorem test_slt_most_negative : afterWord 0x0022182A
    (machineAt 0x00400000 [(1, 0x80000000), (2, 0x7FFFFFFF), (3, 9)])
    (fun t => t.reg 3 == 1) = true := by decide
theorem test_slt_most_positive : afterWord 0x0022182A
    (machineAt 0x00400000 [(1, 0x7FFFFFFF), (2, 0x80000000), (3, 9)])
    (fun t => t.reg 3 == 0) = true := by decide
theorem test_sll_by_31 : afterWord 0x00221FC0 (machineAt 0x00400000 [(1, 5), (2, 3)])
    (fun t => t.reg 3 == 0x80000000) = true := by decide
theorem test_srl_is_logical : afterWord 0x00221F02 (machineAt 0x00400000 [(1, 5), (2, 0xFFFF000F)])
    (fun t => t.reg 3 == 0x0000000F) = true := by decide
theorem test_addiu_sign_extends : afterWord 0x24228000 (machineAt 0x00400000 [(1, 0x00010000)])
    (fun t => t.reg 2 == 0x00008000) = true := by decide
theorem test_andi_zero_extends : afterWord 0x30228000 (machineAt 0x00400000 [(1, 0xFFFFFFFF)])
    (fun t => t.reg 2 == 0x00008000) = true := by decide
theorem test_ori_zero_extends : afterWord 0x34228000 (machineAt 0x00400000 [(1, 0x12340000)])
    (fun t => t.reg 2 == 0x12348000) = true := by decide
theorem test_lui_top_bit : afterWord 0x3C228000 (machineAt 0x00400000 [(1, 0xAAAAAAAA)])
    (fun t => t.reg 2 == 0x80000000) = true := by decide
theorem test_j : afterWord 0x08100008 (machineAt 0x00400008 [])
    (fun t => t.pc == 0x00400020 && t.reg 31 == 0) = true := by decide
theorem test_jal_links : afterWord 0x0C100400 (machineAt 0x00400FFC [])
    (fun t => t.pc == 0x00401000 && t.reg 31 == 0x00401000) = true := by decide
theorem test_jal_target_and_link_carry :
    (match exec (.jal 1) (machineAt 0x0FFFFFFC []) with
      | .next t => t.pc == 0x10000004 && t.reg 31 == 0x10000000
      | .fault _ => false
      | .refused _ => false) = true := by decide
theorem test_beq_taken_to_itself : afterWord 0x1022FFFF (machineAt 0x00400100 [(1, 9), (2, 9)])
    (fun t => t.pc == 0x00400100) = true := by decide
theorem test_beq_not_taken : afterWord 0x10220003 (machineAt 0x00400008 [(1, 5), (2, 6)])
    (fun t => t.pc == 0x0040000C) = true := by decide
theorem test_bne_backward_taken : afterWord 0x1422FFFA (machineAt 0x00400024 [(1, 3)])
    (fun t => t.pc == 0x00400010) = true := by decide
theorem test_bne_forward_out_of_the_array : afterWord 0x14227FFF
    (machineAt 0x00400000 [(1, 1), (2, 2)])
    (fun t => t.pc == 0x00420000 && t.run == .running) = true := by decide
theorem test_jr_ignores_rd : afterWord 0x03E0F808 (machineAt 0x00400000 [(31, 0x00400010)])
    (fun t => t.pc == 0x00400010 && t.reg 31 == 0x00400010) = true := by decide
theorem test_jr_may_misalign : afterWord 0x03E00008 (machineAt 0x00400000 [(31, 0x00400006)])
    (fun t => t.pc == 0x00400006 && t.run == .running) = true := by decide
/-- V7 row 1. -/
theorem test_lw_highest_word :
    afterWord 0x8C22FFFC ((machineAt 0x00400000 [(1, 0x00404000)]).setMemWord 0x00403FFC 0x12345678)
    (fun t => t.reg 2 == 0x12345678 && t.pc == 0x00400004) = true := by decide
/-- V7 row 2. -/
theorem test_lw_above_the_window : afterWord 0x8C220000
    (machineAt 0x00400000 [(1, 0x00404000), (2, 7)])
    (fun t => t.run == .haltedFault (.memoryAccessFault 0x00400000 0x00404000) && t.reg 2 == 7 &&
      t.pc == 0x00400000) = true := by decide
/-- V7 row 13, read back byte by byte, most significant first (R51). -/
theorem test_sw_negative_displacement : afterWord 0xAC228000
    (machineAt 0x00400000 [(1, 0x00409000), (2, 0x11223344)])
    (fun t => t.mem.read 0x00401000 == 0x11 && t.mem.read 0x00401003 == 0x44 &&
      t.mem.readWord 0x00401004 == 0) = true := by decide
/-- V7 row 4. -/
theorem test_sw_to_the_code_segment : afterWord 0xAC22FFFC
    (machineAt 0x00400000 [(1, 0x00401000), (2, 7)])
    (fun t => t.run == .haltedFault (.memoryAccessFault 0x00400000 0x00400FFC) &&
      t.mem.readWord 0x00400FFC == 0) = true := by decide

/-! ## Faults, stop and output: rows of V8 -/

theorem test_unsupported_word : afterWord 0x00000020 (machineAt 0x00400018 [])
    (fun t => t.run == .haltedFault (.unsupportedInstruction 0x00000020 0x00400018) &&
      t.pc == 0x00400018) = true := by decide
theorem test_fetch_fault_past_the_array :
    step (machineAt 0x00404000 []) =
      .next ((machineAt 0x00404000 []).takeFault (.fetchFault 0x00404000)) := by rfl
theorem test_stop_wins_over_fetch_fault :
    step { machineAt 0 [] with stopReq := [true] } = .next (machineAt 0 []).haltNormal := by rfl
theorem test_zero_word_runs_at_the_last_address : afterWord 0 (machineAt 0x00403FFC [])
    (fun t => t.pc == 0x00404000 && t.run == .running) = true := by decide
/-- P4, step 7: the output of the unsupported word. -/
theorem test_output_of_a_fault :
    stepOutput ((machineAt 0x00400018 []).withFetchWord 32 0x00000020) =
      some { text := none, newPC := 0x00400018, changedReg := none, changedMem := none,
             fault := some (.unsupportedInstruction 0x00000020 0x00400018) } := by rfl
/-- P3, step 6: the changed address of a store. -/
theorem test_output_of_a_store :
    (stepOutput ((machineAt 0x00400004 [(2, 0x10)]).withFetchWord 32 0xAFA2FFFC)).map
      (fun o => (o.newPC, o.changedReg, o.changedMem, o.fault)) =
      some (0x00400008, none, some 0x00403FFC, none) := by rfl
/-- S7: a branch prints its resolved target, taken or not. -/
theorem test_format_operands_of_a_branch :
    formatOperands (decode 0x1520FFFA 0x00400024) 0x00400024 =
      some [.reg 9, .reg 0, .target 0x00400010] := by decide
/-- S7: a load prints `$3, -4($29)`. -/
theorem test_format_operands_of_a_load :
    formatOperands (decode 0x8FA3FFFC 0) 0 = some [.reg 3, .offsetBase (-4) 29] := by decide

/-! ## Witnesses: for every statement with hypotheses, concrete states and operands that meet them -/

/-- What `Reports` premises of a state and an instruction. -/
abbrev ReadyFor (s : State) (i : Instr) : Prop :=
  s.run = .running ∧ s.stopAsserted = false ∧ s.fetch = some (encode i)

/-- A machine about to run `i` at `pc`, with some registers set. -/
def about (i : Instr) (pc : Word) (xs : List (RegIdx × Word)) : State :=
  (machineAt pc xs).withFetchWord 32 (encode i).toNat

/-- The state after one step, for a state whose step answers next (every one: R256). -/
def after (s : State) : State :=
  match step s with
  | .next t => t
  | .fault _ => s
  | .refused _ => s

theorem witness_RawFieldsRoundTrip :
    ((0x01 : BitVec 6) ≠ 0x00 ∧ (0x01 : BitVec 6) ≠ 0x02 ∧ (0x01 : BitVec 6) ≠ 0x03) ∧
    ((0x02 : BitVec 6) = 0x02 ∨ (0x02 : BitVec 6) = 0x03) ∧
    ((0x03 : BitVec 6) = 0x02 ∨ (0x03 : BitVec 6) = 0x03) := by decide
theorem witness_EncodingInvertsDecoding :
    decodeInstr 0xAFA2FFFC 0x00400004 = .ok (.sw 29 2 0xFFFC) := by decide
/-- Both policies, at the immediates where the sign changes. -/
theorem witness_ImmediateWideningFollowsTheOpcode :
    decode 0x3C028000 0 = .i 0x0F 0 2 0x8000 0x00008000 .lui ∧
    decode 0x24027FFF 0 = .i 0x09 0 2 0x7FFF 0x00007FFF .addiu ∧
    decode 0x24028000 0 = .i 0x09 0 2 0x8000 0xFFFF8000 .addiu := by decide
theorem witness_JumpTargetJoinsTopBitsAndField :
    decode 0x0FFFFFFF 0x00400000 = .j 0x03 0x3FFFFFF 0x0FFFFFFC .jal := by decide

theorem witness_AdduSubuWriteTheWrappedResult :
    ReadyFor (about (.addu 1 2 3 31) 0x00400000 [(1, 5), (2, 7)]) (.addu 1 2 3 31) ∧
    ReadyFor (about (.subu 0 0 0 0) 0x00403FFC []) (.subu 0 0 0 0) := by decide
theorem witness_BitwiseInstructionsCombineEachBit :
    ReadyFor (about (.and 1 2 3 0) 0x00400000 []) (.and 1 2 3 0) ∧
    ReadyFor (about (.or 1 2 3 0) 0x00400000 []) (.or 1 2 3 0) ∧
    ReadyFor (about (.xor 1 2 3 0) 0x00400000 []) (.xor 1 2 3 0) ∧
    ReadyFor (about (.nor 1 2 3 0) 0x00400000 []) (.nor 1 2 3 0) := by decide
/-- Both outcomes of the comparison, at its extremes. -/
theorem witness_SltComparesSignedNumbers :
    let s := about (.slt 1 2 3 0) 0x00400000 [(1, 0x80000000), (2, 0x7FFFFFFF)]
    ReadyFor s (.slt 1 2 3 0) ∧ (s.reg 1).toInt < (s.reg 2).toInt ∧
      ¬ (s.reg 2).toInt < (s.reg 1).toInt ∧ ¬ (s.reg 1).toInt < (s.reg 1).toInt := by decide
theorem witness_ShiftsMultiplyAndDivideByPowersOfTwo :
    ReadyFor (about (.sll 0 2 3 31) 0x00400000 [(2, 3)]) (.sll 0 2 3 31) ∧
    ReadyFor (about (.srl 0 2 3 0) 0x00400000 [(2, 3)]) (.srl 0 2 3 0) := by decide
theorem witness_AddiuAddsTheSignedImmediate :
    ReadyFor (about (.addiu 1 1 0x8000) 0x00400000 [(1, 4)]) (.addiu 1 1 0x8000) := by decide
theorem witness_AndiOriUseTheZeroExtendedImmediate :
    ReadyFor (about (.andi 1 2 0xFFFF) 0x00400000 []) (.andi 1 2 0xFFFF) ∧
    ReadyFor (about (.ori 1 2 0xFFFF) 0x00400000 []) (.ori 1 2 0xFFFF) := by decide
theorem witness_LuiWritesTheUpperHalfword :
    ReadyFor (about (.lui 7 2 0xFFFF) 0x00400000 []) (.lui 7 2 0xFFFF) := by decide
/-- Condition true and false, backward and forward. -/
theorem witness_BranchesMoveOnlyThePc :
    let s := about (.beq 1 2 0x8000) 0x00400000 [(1, 9), (2, 9)]
    let u := about (.bne 1 2 0x7FFF) 0x00400000 [(1, 9), (2, 8)]
    ReadyFor s (.beq 1 2 0x8000) ∧ s.reg 1 = s.reg 2 ∧
      ReadyFor u (.bne 1 2 0x7FFF) ∧ u.reg 1 ≠ u.reg 2 := by decide
theorem witness_JumpsGoToTheTargetAndJalLinks :
    ReadyFor (about (.j 0) 0x00400000 []) (.j 0) ∧
    ReadyFor (about (.jal 0x3FFFFFF) 0x00400000 []) (.jal 0x3FFFFFF) := by decide
theorem witness_JrCopiesTheNamedRegister :
    ReadyFor (about (.jr 31 0 31 0) 0x00400000 [(31, 2)]) (.jr 31 0 31 0) := by decide

/-- The address clause of `lw` and `sw` holds of the effective address `x[1] + imm16`. -/
abbrev InWindow (s : State) (imm16 : BitVec 16) : Prop :=
  (s.reg 1 + imm16.signExtend 32).toNat % 4 = 0 ∧
    s.cfg.dataLo ≤ (s.reg 1 + imm16.signExtend 32).toNat ∧
    (s.reg 1 + imm16.signExtend 32).toNat < s.cfg.dataHi

/-- The lowest and the highest word of the window; the word below, the word above, a misaligned one. -/
theorem witness_LwLoadsTheWordOrFaults :
    let lo := about (.lw 1 2 0x0000) 0x00400000 [(1, 0x00401000)]
    let hi := about (.lw 1 2 0xFFFC) 0x00400000 [(1, 0x00404000)]
    (InWindow lo 0x0000 ∧ ReadyFor lo (.lw 1 2 0x0000)) ∧
    (InWindow hi 0xFFFC ∧ ReadyFor hi (.lw 1 2 0xFFFC)) ∧
    ¬ InWindow lo 0xFFFC ∧ ¬ InWindow hi 0x0000 ∧ ¬ InWindow lo 0x0002 := by decide
theorem witness_SwStoresTheWordOrFaults :
    let lo := about (.sw 1 2 0x0000) 0x00400000 [(1, 0x00401000), (2, 5)]
    let hi := about (.sw 1 2 0xFFFC) 0x00400000 [(1, 0x00404000), (2, 5)]
    (lo.mem.wf ∧ InWindow lo 0x0000 ∧ ReadyFor lo (.sw 1 2 0x0000)) ∧
    (hi.mem.wf ∧ InWindow hi 0xFFFC ∧ ReadyFor hi (.sw 1 2 0xFFFC)) ∧
    ¬ InWindow lo 0xFFFC ∧ ¬ InWindow hi 0x0000 ∧ ¬ InWindow lo 0x0002 := by decide

theorem witness_StoreThenLoadReturnsTheWord :
    let s := machineAt 0x00400000 [(1, 0x00401000), (2, 0x12345678), (3, 0x00402000)]
    s.mem.wf ∧ memOK s.cfg (s.ea 1 0x0004) = true ∧ s.ea 3 0xF004 = s.ea 1 0x0004 := by decide
theorem witness_StoreIsVisibleToTheNextFetch :
    let s := machineAt 0x00401000 [(1, 0x00401000), (2, 0x03E00008)]
    s.mem.wf ∧ memOK s.cfg (s.ea 1 0x0004) = true ∧ s.ea 1 0x0004 = s.pc + 4 := by decide
/-- A run that stores into the window. -/
theorem witness_OnlyTheDataWindowEverChanges :
    let s := about (.sw 29 2 0xFFFC) 0x00400000 [(2, 0x10)]
    s.Inv ∧ Sys2Proof.core.run 1 s = .next (after s) ∧ (after s).mem.read 0x00403FFF = 0x10 :=
  ⟨⟨by decide, by decide, by decide⟩, by rfl, by decide⟩
/-- At both bounds of the window and of the array, and with bit 31 set. -/
theorem witness_AddressChecksAgreeOnSignedReading :
    Params.default.wf ∧ memOK Params.default 0x00401000 = true ∧
    memOK Params.default 0x00404000 = false ∧ fetchOK Params.default 0x00403FFC = true ∧
    fetchOK Params.default 0x80400000 = false := by decide
theorem witness_LoadsAndStoresFaultJustOutsideTheWindow :
    let s := machineAt 0x00400000 [(1, 0x00401000), (3, 0x00404000)]
    s.cfg.wf ∧ (s.ea 1 0xFFFC).toNat = s.cfg.dataLo - 4 ∧ (s.ea 3 0x0000).toNat = s.cfg.dataHi ∧
    (s.ea 1 0x0002).toNat % 4 ≠ 0 ∧ (s.ea 1 0x0000).toNat = s.cfg.dataLo ∧
    (s.ea 3 0xFFFC).toNat = s.cfg.dataHi - 4 := by decide
theorem witness_CanonicalMemoriesThatReadAlikeAreEqual :
    let m := Memory.write (Memory.write [] 8 1) 4 2
    let m' := Memory.write (Memory.write [] 4 2) 8 1
    Memory.wf m ∧ Memory.wf m' ∧ ∀ a, Memory.read m a = Memory.read m' a :=
  ⟨by decide, by decide, fun _ => rfl⟩

theorem witness_StepRunsTheDecodedInstruction :
    let s := about (.lui 0 8 0x0040) 0x00400000 []
    s.run = .running ∧ s.stopAsserted = false ∧ fetchOK s.cfg s.pc = true ∧
    decodeBytes s.pc [s.mem.read s.pc.toNat, s.mem.read (s.pc.toNat + 1),
      s.mem.read (s.pc.toNat + 2), s.mem.read (s.pc.toNat + 3)] = .ok (.lui 0 8 0x0040, []) := by
  decide
theorem witness_StopRequestOnlyHaltsTheCore :
    let s := { machineAt 0x00000002 [] with stopReq := [true, false] }
    s.run = .running ∧ s.stopAsserted = true := by decide
/-- Misaligned, one word below the array, at TOP; the first and the last word of the array. -/
theorem witness_FetchCheckDecidesWhatIsFetched :
    ((machineAt 0x00400002 []).pc.toNat % 4 ≠ 0 ∧
      (machineAt 0x003FFFFC []).pc.toNat < (machineAt 0x003FFFFC []).cfg.base ∧
      (machineAt 0x00404000 []).cfg.top ≤ (machineAt 0x00404000 []).pc.toNat ∧
      (machineAt 0x00404000 []).run = .running ∧
      (machineAt 0x00404000 []).stopAsserted = false) ∧
    (∀ s ∈ [machineAt 0x00400000 [], machineAt 0x00403FFC []],
      s.pc.toNat % 4 = 0 ∧ s.cfg.base ≤ s.pc.toNat ∧ s.pc.toNat < s.cfg.top) := by decide
theorem witness_UnsupportedWordTakesItsFault :
    (let s := (machineAt 0x00400000 []).withFetchWord 32 0x0000000C
     s.run = .running ∧ s.stopAsserted = false ∧ s.fetch = some 0x0000000C ∧
       ∀ i, encode i ≠ 0x0000000C) ∧
    (let s := about (.addu 1 2 3 0) 0x00400000 []
     s.run = .running ∧ s.stopAsserted = false ∧ s.fetch = some 0x00221821 ∧
       ∃ i, encode i = 0x00221821) :=
  ⟨⟨by decide, by decide, by decide, fun i h => by
      have ho := congrArg opcodeField h
      have hf := congrArg (BitVec.extractLsb' 0 6) h
      cases i <;>
        simp only [encode, funct_assembleR, opcodeField_assembleI, opcodeField_assembleJ] at ho hf <;>
        first | exact absurd hf (by decide) | exact absurd ho (by decide)⟩,
    ⟨by decide, by decide, by decide, .addu 1 2 3 0, by decide⟩⟩

/-- The states the step statements are witnessed with: each takes one of the ways a step can end. -/
def stopped : State := { machineAt 0 [] with stopReq := [true] }
def badFetch : State := machineAt 0x00404000 []
def badWord : State := (machineAt 0x00400018 []).withFetchWord 32 0x00000020
def badLoad : State := about (.lw 29 3 0x0000) 0x00400024 [(3, 0x10)]
def goodAdd : State := about (.addu 1 2 3 0) 0x00400000 [(1, 5), (2, 7)]
def goodStore : State := about (.sw 29 2 0xFFFC) 0x00400004 [(2, 0x10)]

theorem witness_FaultConditionsFollowThePriorityOrder :
    (stopped.run = .running ∧ step stopped = .next (after stopped) ∧
      (after stopped).run = .haltedNormal) ∧
    (badFetch.run = .running ∧ step badFetch = .next (after badFetch) ∧
      (after badFetch).run = .haltedFault (.fetchFault 0x00404000)) ∧
    (badWord.run = .running ∧ step badWord = .next (after badWord) ∧
      (after badWord).run = .haltedFault (.unsupportedInstruction 0x00000020 0x00400018)) ∧
    (badLoad.run = .running ∧ step badLoad = .next (after badLoad) ∧
      (after badLoad).run = .haltedFault (.memoryAccessFault 0x00400024 0x00404000)) :=
  ⟨⟨rfl, rfl, rfl⟩, ⟨rfl, rfl, rfl⟩, ⟨rfl, rfl, rfl⟩, ⟨rfl, rfl, rfl⟩⟩
theorem witness_FaultChangesOnlyTheRunState :
    badLoad.run = .running ∧ step badLoad = .next (after badLoad) ∧
      (after badLoad).run = .haltedFault (.memoryAccessFault 0x00400024 0x00404000) :=
  ⟨rfl, rfl, rfl⟩
theorem witness_HaltedStatesAreAbsorbing :
    (after stopped).run ≠ .running ∧ (after badFetch).run ≠ .running := by decide
/-- Every clause: taken and untaken branches, jumps, `jr`, the default, a fault. -/
theorem witness_StepsMoveThePcByTheRule :
    (∀ i ∈ ([.beq 0 0 0xFFFF, .bne 0 29 0x0003, .beq 0 29 0x0003, .bne 0 0 0x0003, .j 0, .jal 1,
        .jr 29 0 0 0, .sw 29 0 0xFFFC] : List Instr),
      ReadyFor (about i 0x00400008 []) i ∧
      decodeInstr (encode i) 0x00400008 = .ok i ∧ (about i 0x00400008 []).pc = 0x00400008 ∧
      (about i 0x00400008 []).cfg.wf ∧ (after (about i 0x00400008 [])).run = .running) ∧
    (ReadyFor badLoad (.lw 29 3 0x0000) ∧
      decodeInstr (encode (.lw 29 3 0x0000)) badLoad.pc = .ok (.lw 29 3 0x0000) ∧
      (after badLoad).run ≠ .running) ∧
    step goodAdd = .next (after goodAdd) ∧ step badLoad = .next (after badLoad) :=
  ⟨by decide, by decide, rfl, rfl⟩
/-- Each of the five parts; the `jr` part with a value inside the array that is not a multiple of 4. -/
theorem witness_OnlyJrCanMisalignThePc :
    State.resetWith Params.default [0x00221821] [] =
      some (State.initial Params.default [0x00221821] []) ∧
    (goodAdd.pc.toNat % 4 = 0 ∧ (∀ rs rt rd shamt, Instr.addu 1 2 3 0 ≠ .jr rs rt rd shamt) ∧
      ∃ t, exec (.addu 1 2 3 0) goodAdd = .next t) ∧
    (let s := machineAt 0x00400000 [(31, 0x00400006)]
     s.run = .running ∧ s.stopAsserted = false ∧ (s.reg 31).toNat % 4 ≠ 0) ∧
    (badFetch.run = .running ∧ badFetch.stopAsserted = false ∧
      badFetch.cfg.top ≤ badFetch.pc.toNat) ∧
    goodAdd.fetch = some 0x00221821 :=
  ⟨by rfl, ⟨by decide, (fun _ _ _ _ h => nomatch h), _, rfl⟩, by decide, by decide, by decide⟩
/-- `addu $3, $1, $2` with a register it neither reads nor writes, with the one it writes, and with one
it reads and does not write. -/
theorem witness_InstructionsReadOnlyTheRegistersTheyName :
    ∃ t, exec (.addu 1 2 3 0) goodAdd = .next t ∧
      ((4 : RegIdx) ∉ [(1 : RegIdx), 2] ∧ (4 : RegIdx) ∉ [(3 : RegIdx)]) ∧
      ((3 : RegIdx) ∉ [(1 : RegIdx), 2] ∧ (3 : RegIdx) ∈ [(3 : RegIdx)] ∧ t.run = goodAdd.run ∧
        goodAdd.run = .running) ∧
      ((1 : RegIdx) ∈ [(1 : RegIdx), 2] ∧ (1 : RegIdx) ∉ [(3 : RegIdx)]) :=
  ⟨_, rfl, by decide, ⟨by decide, by decide, rfl, rfl⟩, by decide⟩
/-- A store to the highest word of the window, an instruction that stores nothing, a load and a store
that fault, and a step that runs no instruction. -/
theorem witness_AtMostOneRegisterOrOneWordChanges :
    (goodStore.mem.wf ∧ step goodStore = .next (after goodStore) ∧
      ReadyFor goodStore (.sw 29 2 0xFFFC) ∧
      decodeInstr (encode (.sw 29 2 0xFFFC)) goodStore.pc = .ok (.sw 29 2 0xFFFC) ∧
      memOK goodStore.cfg (goodStore.ea 29 0xFFFC) = true) ∧
    (goodAdd.mem.wf ∧ step goodAdd = .next (after goodAdd) ∧ ReadyFor goodAdd (.addu 1 2 3 0) ∧
      decodeInstr (encode (.addu 1 2 3 0)) goodAdd.pc = .ok (.addu 1 2 3 0)) ∧
    (badLoad.mem.wf ∧ step badLoad = .next (after badLoad) ∧
      ReadyFor badLoad (.lw 29 3 0x0000)) ∧
    (let s := about (.sw 29 2 0x0000) 0x00400000 []
     s.mem.wf ∧ step s = .next (after s) ∧ ReadyFor s (.sw 29 2 0x0000) ∧
       memOK s.cfg (s.ea 29 0x0000) = false) ∧
    (badFetch.mem.wf ∧ step badFetch = .next (after badFetch) ∧ badFetch.fetch = none) :=
  ⟨⟨by decide, rfl, by decide, by decide, by decide⟩, ⟨by decide, rfl, by decide, by decide⟩,
    ⟨by decide, rfl, by decide⟩, ⟨by decide, rfl, by decide, by decide⟩,
    ⟨by decide, rfl, by decide⟩⟩
theorem witness_StepKeepsParametersAndSamplesTheStopOnce :
    step stopped = .next (after stopped) ∧ stopped.run = .running ∧ stopped.stopReq = [true] :=
  ⟨rfl, rfl, rfl⟩
theorem witness_SafeRunsTookNoEarlierFault : 1 ≤ 2 ∧ SafeRun 2 State.reset :=
  ⟨by decide, after (after State.reset), rfl, fun f h => by cases h⟩

/-- A machine of one code word and one data word. -/
def tiny : Params := { base := 0, ni := 1, nd := 1, spIndex := 29 }

/-- An image that exactly fills the code segment, and the empty one. -/
theorem witness_ResetLeavesTheSpecifiedState :
    tiny.wf ∧ [(0x00221821 : Word)].length ≤ tiny.ni ∧ ([] : List Word).length ≤ tiny.ni := by
  decide
theorem witness_ResetRefusesAnImageThatDoesNotFit :
    tiny.ni < [(0 : Word), 0].length := by decide
/-- A first word that is not zero, with a stop requested at the first step; a zero word, with a stop
requested later; no image. -/
theorem witness_ExecutionBeginsWithTheImage :
    State.resetWith tiny [0x00221821] [true] = some (State.initial tiny [0x00221821] [true]) ∧
    (State.resetWith tiny [0] [false, true] = some (State.initial tiny [0] [false, true]) ∧
      (State.initial tiny [0] [false, true]).stopAsserted = false ∧
      ([0] : List Word).getD 0 0 = 0) ∧
    (State.resetWith tiny [] [] = some (State.initial tiny [] []) ∧
      (State.initial tiny [] []).stopAsserted = false ∧ ([] : List Word).getD 0 0 = 0) :=
  ⟨rfl, ⟨rfl, rfl, rfl⟩, ⟨rfl, rfl, rfl⟩⟩
theorem witness_ResetMeetsTheInvariants :
    State.resetWith tiny [0x00221821] [true] = some (State.initial tiny [0x00221821] [true]) := rfl
theorem witness_StepKeepsTheInvariant :
    goodStore.Inv ∧ step goodStore = .next (after goodStore) :=
  ⟨⟨by decide, by decide, by decide⟩, rfl⟩
/-- A running state about to take each kind of fault; the record is true of a running state. -/
theorem witness_StepKeepsFaultRecordsTrue :
    (badFetch.FaultRecordTrue ∧ step badFetch = .next (after badFetch)) ∧
    (badWord.FaultRecordTrue ∧ step badWord = .next (after badWord)) ∧
    (badLoad.FaultRecordTrue ∧ step badLoad = .next (after badLoad)) ∧
    ((after badFetch).FaultRecordTrue ∧ step (after badFetch) = .next (after badFetch)) :=
  ⟨⟨trivial, rfl⟩, ⟨trivial, rfl⟩, ⟨trivial, rfl⟩, ⟨⟨rfl, rfl⟩, rfl⟩⟩
theorem witness_OutputReportsWhatTheStepDid :
    (goodStore.run = .running ∧ goodStore.mem.wf ∧ step goodStore = .next (after goodStore)) ∧
    (badLoad.run = .running ∧ badLoad.mem.wf ∧ step badLoad = .next (after badLoad)) :=
  ⟨⟨rfl, by decide, rfl⟩, ⟨rfl, by decide, rfl⟩⟩
/-- A store, an instruction that stores nothing, and a step that does not complete. -/
theorem witness_ReportedChangesFollowTheWriteEnable :
    (goodStore.run = .running ∧ step goodStore = .next (after goodStore) ∧
      (after goodStore).run = .running) ∧
    (goodAdd.run = .running ∧ step goodAdd = .next (after goodAdd) ∧
      (after goodAdd).run = .running) ∧
    (badWord.run = .running ∧ step badWord = .next (after badWord) ∧
      (after badWord).run ≠ .running) :=
  ⟨⟨rfl, rfl, rfl⟩, ⟨rfl, rfl, rfl⟩, ⟨rfl, rfl, by decide⟩⟩
/-- A step that puts a text out and one that does not. -/
theorem witness_TextIsPutOutOncePastTheFormatter :
    (badLoad.run = .running ∧ step badLoad = .next (after badLoad)) ∧
    (badWord.run = .running ∧ step badWord = .next (after badWord)) :=
  ⟨⟨rfl, rfl⟩, ⟨rfl, rfl⟩⟩

end Sys2Proof.Tests
end

section
/-! PROOF. The obligations of spec/10_state.md: the state after reset (R33), the next pc (R25, R26) and
the registers an instruction reads and writes (R23), each after the lemmas it is assembled from. -/

/-! ## The image in memory -/

namespace Sys2Proof.Memory

/-- The empty memory reads as zero words (R33). -/
@[simp] theorem readWord_nil (a : Nat) : readWord ([] : Memory) a = 0 := by
  simp [readWord, read, unlisted, wordOfBytes]

/-- A word wholly below the image is as it was before the load. -/
theorem readWord_loadImage_below {m : Memory} (h : m.wf) {a b : Nat} (ws : List Word)
    (hb : b + 4 ≤ a) : (m.loadImage a ws).readWord b = m.readWord b := by
  have below : ∀ p, p < a → (m.loadImage a ws).read p = m.read p := fun p hp =>
    read_loadImage_outside h ws (.inl hp)
  simp only [readWord]
  rw [below b (by omega), below (b + 1) (by omega), below (b + 2) (by omega),
    below (b + 3) (by omega)]

/-- Word `k` of a loaded image stands at `a + 4 * k`; past the image the memory is as before (R252). -/
theorem readWord_loadImage {m : Memory} (h : m.wf) (a : Nat) (ws : List Word) (k : Nat) :
    (m.loadImage a ws).readWord (a + 4 * k) = ws.getD k (m.readWord (a + 4 * k)) := by
  induction ws generalizing m a k with
  | nil => rfl
  | cons w ws ih =>
    have hw := wf_writeWord h a w
    rw [loadImage]
    cases k with
    | zero => exact (readWord_loadImage_below hw ws le_rfl).trans (readWord_writeWord_same h a w)
    | succ k =>
      have next := ih hw (a + 4) k
      rw [readWord_writeWord_disjoint h w (by omega)] at next
      rw [show a + 4 * (k + 1) = a + 4 + 4 * k by ring, next]
      rfl

end Sys2Proof.Memory

namespace Sys2Proof.Machine

/-! ## Reset -/

/-- Reset has a meaning exactly within its preconditions, and then it gives the initial state. -/
theorem resetWith_eq_some_iff (c : Params) (image : List Word) (stops : List Bool) (s : State) :
    State.resetWith c image stops = some s ↔
      (c.wf ∧ c.imageFits image) ∧ s = State.initial c image stops := by
  unfold State.resetWith
  split
  · next h => rw [Option.some_inj, and_iff_right h, eq_comm]
  · next h => simp only [h, reduceCtorEq, false_and]

/-- `BASE` and `TOP` of legal parameters are addresses below the middle of the address space (R7). -/
theorem base_le_top_le {c : Params} (h : c.wf) : c.base ≤ c.top ∧ c.top ≤ 2 ^ 31 :=
  ⟨Nat.le_add_right _ _, h.2.2.2⟩

theorem initial_pc_toNat {c : Params} (h : c.wf) (image : List Word) (stops : List Bool) :
    (State.initial c image stops).pc.toNat = c.base := by
  obtain ⟨hbase, htop⟩ := base_le_top_le h
  exact Nat.mod_eq_of_lt (by omega)

/-- After reset the stack pointer is `TOP` and every other register is 0 (R33). -/
theorem initial_reg (c : Params) (image : List Word) (stops : List Bool) (r : RegIdx) :
    (State.initial c image stops).reg r = if r = c.spIndex then BitVec.ofNat 32 c.top else 0 := by
  simp only [State.reg, State.initial, Regs.get_set]
  simp [Regs.get, Vector.get_eq_getElem]

/-- Settles O46: the registers by `initial_reg`, the memory by `readWord_loadImage`. -/
theorem resetLeavesTheSpecifiedState : Obligations.ResetLeavesTheSpecifiedState := by
  unfold Obligations.ResetLeavesTheSpecifiedState
  intro c image stops hc hfits
  refine ⟨State.initial c image stops, (resetWith_eq_some_iff ..).2 ⟨⟨hc, hfits⟩, rfl⟩, ?sp, ?others,
    initial_pc_toNat hc image stops, rfl, rfl, ?memory⟩
  case sp =>
    obtain ⟨-, htop⟩ := base_le_top_le hc
    rw [initial_reg, if_pos rfl]
    exact Nat.mod_eq_of_lt (by omega)
  case others =>
    intro r hr
    rw [initial_reg, if_neg hr]
  case memory =>
    intro k
    exact (Memory.readWord_loadImage Memory.wf_nil c.base image k).trans
      (by rw [Memory.readWord_nil])

/-! ## The next pc -/

/-- The pc an instruction that completes leads to (R25). -/
def pcAfter (i : Instr) (s : State) : Word :=
  match i with
  | .j target26 | .jal target26 => jumpTarget s.pc target26
  | .jr rs _ _ _ => s.reg rs
  | .beq rs rt imm16 => if s.reg rs = s.reg rt then s.pc + 4 + 4 * sext32 imm16 else s.pc + 4
  | .bne rs rt imm16 => if s.reg rs ≠ s.reg rt then s.pc + 4 + 4 * sext32 imm16 else s.pc + 4
  | _ => s.pc + 4

/-- The branch offset is four times the immediate (R87). -/
theorem branchOffset_eq_mul (imm32 : Word) : branchOffset imm32 = 4 * imm32 := by
  apply BitVec.eq_of_toNat_eq
  simp [branchOffset, Nat.shiftLeft_eq, Nat.mul_comm]

/-- The commit of a branch moves the pc by the offset if taken, else past the branch (R160 to R162). -/
theorem commitBranch_pc (s : State) (taken : Bool) (imm16 : BitVec 16) :
    (s.commitBranch taken imm16).pc =
      if taken then s.pc + 4 + 4 * sext32 imm16 else s.pc + 4 := by
  simp only [State.commitBranch, commit_pc, branchTarget, branchOffset_eq_mul, nextSequential]

/-- An instruction either completes, with the run state kept and the pc moved by the rule, or takes a
fault. -/
theorem exec_pc {i : Instr} {s t : State} (h : exec i s = .next t) :
    (t.run = s.run ∧ t.pc = pcAfter i s) ∨ ∃ f, t = s.takeFault f := by
  cases i with
  | beq rs rt imm16 =>
    cases h
    exact .inl ⟨commit_run _ _, by simp [commitBranch_pc, pcAfter, branchEqual]⟩
  | bne rs rt imm16 =>
    cases h
    exact .inl ⟨commit_run _ _, by simp [commitBranch_pc, pcAfter, branchNotEqual]⟩
  | lw rs rt imm16 =>
    simp only [exec, execLw] at h
    split at h <;> cases h
    · exact .inl ⟨commit_run _ _, rfl⟩
    · exact .inr ⟨_, rfl⟩
  | sw rs rt imm16 =>
    simp only [exec, execSw] at h
    split at h <;> cases h
    · exact .inl ⟨commit_run _ _, rfl⟩
    · exact .inr ⟨_, rfl⟩
  | _ =>
    cases h
    exact .inl ⟨commit_run _ _, rfl⟩

/-- The rule of R25 by cases: taken branch, jump, `jr`, and every other instruction. -/
theorem pcAfter_cases (i : Instr) (s : State) :
    (∃ rs rt imm16, ((i = .beq rs rt imm16 ∧ s.reg rs = s.reg rt) ∨
        (i = .bne rs rt imm16 ∧ s.reg rs ≠ s.reg rt)) ∧
        pcAfter i s = s.pc + 4 + 4 * imm16.signExtend 32) ∨
    (∃ target26, (i = .j target26 ∨ i = .jal target26) ∧ pcAfter i s = jumpTarget s.pc target26) ∨
    (∃ rs rt rd shamt, i = .jr rs rt rd shamt ∧ pcAfter i s = s.reg rs) ∨
    ((∀ target26, i ≠ .j target26 ∧ i ≠ .jal target26) ∧
      (∀ rs rt rd shamt, i ≠ .jr rs rt rd shamt) ∧
      (∀ rs rt imm16, i = .beq rs rt imm16 → s.reg rs ≠ s.reg rt) ∧
      (∀ rs rt imm16, i = .bne rs rt imm16 → s.reg rs = s.reg rt) ∧
      pcAfter i s = s.pc + 4) := by
  cases i with
  | j target26 => exact .inr (.inl ⟨target26, .inl rfl, rfl⟩)
  | jal target26 => exact .inr (.inl ⟨target26, .inr rfl, rfl⟩)
  | jr rs rt rd shamt => exact .inr (.inr (.inl ⟨rs, rt, rd, shamt, rfl, rfl⟩))
  | beq rs rt imm16 =>
    by_cases e : s.reg rs = s.reg rt
    · exact .inl ⟨rs, rt, imm16, .inl ⟨rfl, e⟩, if_pos e⟩
    · exact .inr (.inr (.inr (by simp [pcAfter, e])))
  | bne rs rt imm16 =>
    by_cases e : s.reg rs = s.reg rt
    · exact .inr (.inr (.inr (by simp [pcAfter, e])))
    · exact .inl ⟨rs, rt, imm16, .inr ⟨rfl, e⟩, if_pos e⟩
  | _ => exact .inr (.inr (.inr (by simp [pcAfter])))

/-- A running core whose stop request is not asserted runs the instruction it fetches and decodes. -/
theorem step_eq_exec {s : State} {w : Word} {i : Instr} (hrun : s.run = .running)
    (hstop : s.stopAsserted = false) (hfetch : s.fetch = some w)
    (hdec : decodeInstr w s.pc = .ok i) : step s = exec i s.sampled := by
  obtain ⟨h, -⟩ | ⟨-, h, -⟩ | ⟨_, -, h, h', -⟩ | ⟨_, _, -, h, h', e⟩ := step_running hrun <;>
    simp_all

/-- A running core whose stop request is not asserted takes FetchFault where the pc fails the check. -/
theorem step_of_fetch_none {s : State} (hrun : s.run = .running) (hstop : s.stopAsserted = false)
    (hfetch : s.fetch = none) : step s = .next (s.sampled.takeFault (.fetchFault s.pc)) := by
  obtain ⟨h, -⟩ | ⟨-, -, e⟩ | ⟨_, -, h, -⟩ | ⟨_, _, -, h, -⟩ := step_running hrun <;>
    simp_all

/-- A pc that is fetched from is an aligned address of the memory array (R57). -/
theorem fetch_some_bounds {s : State} {w : Word} (h : s.fetch = some w) :
    s.pc.toNat % 4 = 0 ∧ s.cfg.base ≤ s.pc.toNat ∧ s.pc.toNat < s.cfg.top :=
  (fetchOK_iff _ _).1 ((fetch_eq_some_iff s w).1 h).1

/-- Settles O40: `exec_pc` gives the pc of the rule or a fault, `pcAfter_cases` reads the rule off. -/
theorem stepsMoveThePcByTheRule : Obligations.StepsMoveThePcByTheRule := by
  unfold Obligations.StepsMoveThePcByTheRule
  intro s t w i hrun hstop hfetch hdec hstep
  rw [step_eq_exec hrun hstop hfetch hdec] at hstep
  have noWrap : s.cfg.wf → (s.pc + 4).toNat = s.pc.toNat + 4 := by
    intro hc
    obtain ⟨-, -, hlt⟩ := fetch_some_bounds hfetch
    obtain ⟨-, htop⟩ := base_le_top_le hc
    bv_omega
  obtain ⟨hrun', hpc⟩ | ⟨f, rfl⟩ := exec_pc hstep
  · refine ⟨fun _ => ?_, fun hne => absurd (hrun'.trans hrun) hne, noWrap⟩
    rw [hpc]
    exact pcAfter_cases i s
  · exact ⟨fun h => by simp at h, fun _ => rfl, noWrap⟩

/-! ## Alignment of the pc -/

/-- The jump target ends in two zero bits (R86). -/
theorem jumpTarget_aligned (pc : Word) (target26 : BitVec 26) :
    (jumpTarget pc target26).toNat % 4 = 0 := by
  rw [← aligned_iff, aligned, jumpTarget, extractLsb'_append_low _ _ 0 2 le_rfl]
  decide

/-- Adding multiples of 4 keeps an address a multiple of 4, the wrap included. -/
theorem branchTarget_aligned {pc : Word} (h : pc.toNat % 4 = 0) (off : Word) :
    (pc + 4).toNat % 4 = 0 ∧ (pc + 4 + 4 * off).toNat % 4 = 0 := by
  simp only [BitVec.toNat_add, BitVec.toNat_mul, show (4 : Word).toNat = 4 from rfl]
  omega

/-- The pc rule keeps a multiple of 4 for every instruction but `jr` (R26). -/
theorem pcAfter_aligned {i : Instr} {s : State} (h : s.pc.toNat % 4 = 0)
    (hjr : ∀ rs rt rd shamt, i ≠ .jr rs rt rd shamt) : (pcAfter i s).toNat % 4 = 0 := by
  obtain ⟨-, -, imm16, -, e⟩ | ⟨target26, -, e⟩ | ⟨rs, rt, rd, shamt, hi, -⟩ | ⟨-, -, -, -, e⟩ :=
    pcAfter_cases i s
  · exact e ▸ (branchTarget_aligned h _).2
  · exact e ▸ jumpTarget_aligned _ _
  · exact absurd hi (hjr rs rt rd shamt)
  · exact e ▸ (branchTarget_aligned h 0).1

/-- An instruction but `jr` keeps a pc that is a multiple of 4, on a fault too (R26). -/
theorem exec_keeps_pc_aligned {i : Instr} {s t : State} (h : s.pc.toNat % 4 = 0)
    (hjr : ∀ rs rt rd shamt, i ≠ .jr rs rt rd shamt) (hexec : exec i s = .next t) :
    t.pc.toNat % 4 = 0 := by
  obtain ⟨-, hpc⟩ | ⟨f, rfl⟩ := exec_pc hexec
  · exact hpc ▸ pcAfter_aligned h hjr
  · exact h

/-- A misaligned pc or one outside the memory array fetches nothing (R57). -/
theorem fetch_eq_none_of_bad_pc {s : State}
    (h : s.pc.toNat % 4 ≠ 0 ∨ s.pc.toNat < s.cfg.base ∨ s.cfg.top ≤ s.pc.toNat) :
    s.fetch = none := by
  rw [fetch_eq_none_iff, Bool.eq_false_iff, ne_eq, fetchOK_iff]
  omega

/-- Settles O41, one lemma per part; the `jr` part is its commit and then the fetch that faults. -/
theorem onlyJrCanMisalignThePc : Obligations.OnlyJrCanMisalignThePc := by
  unfold Obligations.OnlyJrCanMisalignThePc
  refine ⟨?reset, fun s t i => exec_keeps_pc_aligned, ?jr, ?badPc, fun s w => fetch_some_bounds⟩
  case reset =>
    intro c image stops s hs
    obtain ⟨⟨hc, -⟩, rfl⟩ := (resetWith_eq_some_iff ..).1 hs
    rw [initial_pc_toNat hc]
    exact hc.1
  case jr =>
    intro s rs rt rd shamt hrun hstop hmis
    have hfetch : (s.commit { nextPC := s.reg rs }).fetch = none :=
      fetch_eq_none_of_bad_pc (.inl hmis)
    exact ⟨_, _, rfl, hrun, rfl, step_of_fetch_none hrun hstop hfetch, rfl, rfl⟩
  case badPc =>
    intro s hrun hstop hbad
    have hfetch := fetch_eq_none_of_bad_pc hbad
    exact ⟨hfetch, _, step_of_fetch_none hrun hstop hfetch, rfl⟩

/-! ## The registers an instruction reads and writes -/

/-- The meaning `m` reads no register but `reads` and writes none but `writes` (R23): a register it does
not write is kept, one it does not name may hold anything, and so may one it only writes, where it
completes. -/
def AccessesOnly (m : State → Host.Outcome State Fault Refusal) (reads writes : List RegIdx) : Prop :=
  ∀ (s t : State) (r : RegIdx) (v : Word), m s = .next t →
    (∀ q, q ∉ writes → t.reg q = s.reg q) ∧
    (r ∉ reads → r ∉ writes → m (s.setReg r v) = .next (t.setReg r v)) ∧
    (r ∉ reads → r ∈ writes → t.run = s.run → s.run = .running → m (s.setReg r v) = .next t)

/-- The register a commit writes, as a list of at most one. -/
def Commit.dests (c : Commit) : List RegIdx := (c.reg.map Prod.fst).toList

theorem Regs.set_set_same (x : Regs) (r : RegIdx) (v w : Word) :
    (x.set r v).set r w = x.set r w := by
  simp [Regs.set, Vector.set]

theorem Regs.set_set_comm (x : Regs) {r d : RegIdx} (h : r ≠ d) (v w : Word) :
    (x.set r v).set d w = (x.set d w).set r v := by
  have hne : r.toNat ≠ d.toNat := fun e => h (BitVec.eq_of_toNat_eq e)
  exact Vector.set_comm _ _ hne

@[simp] theorem setReg_memWord (s : State) (r : RegIdx) (v a : Word) :
    (s.setReg r v).memWord a = s.memWord a := rfl

@[simp] theorem setReg_takeFault (s : State) (r : RegIdx) (v : Word) (f : Fault) :
    (s.setReg r v).takeFault f = (s.takeFault f).setReg r v := rfl

/-- A register outside the list that is read may be replaced before the read. -/
theorem reg_setReg_unread {r q : RegIdx} {reads : List RegIdx} (hr : r ∉ reads) (hq : q ∈ reads)
    (s : State) (v : Word) : (s.setReg r v).reg q = s.reg q :=
  reg_setReg_ne s q r v fun e => hr (e ▸ hq)

/-- A commit keeps every register but the one it writes. -/
theorem commit_reg_of_not_mem_dests (s : State) {c : Commit} {q : RegIdx} (hq : q ∉ c.dests) :
    (s.commit c).reg q = s.reg q := by
  obtain ⟨n, _ | ⟨d, v⟩, st⟩ := c
  · rw [State.reg, commit_regs_of_no_reg _ _ rfl]
    rfl
  · rw [commit_reg_of_reg _ _ _ _ _ rfl, if_neg (by simpa [Commit.dests] using hq)]

/-- Replacing a register that a commit does not write commutes with the commit. -/
theorem commit_setReg_of_not_mem_dests (s : State) {c : Commit} {r : RegIdx} (hr : r ∉ c.dests)
    (v : Word) : (s.setReg r v).commit c = (s.commit c).setReg r v := by
  obtain ⟨n, _ | ⟨d, w⟩, _ | st⟩ := c
  · rfl
  · rfl
  all_goals
    have hne : r ≠ d := by simpa [Commit.dests] using hr
    simp only [State.commit, State.writeReg?, State.store?, State.setReg, State.setMemWord,
      Regs.set_set_comm _ hne]

/-- Replacing the register that a commit writes is undone by the commit. -/
theorem commit_setReg_of_mem_dests (s : State) {c : Commit} {r : RegIdx} (hr : r ∈ c.dests)
    (v : Word) : (s.setReg r v).commit c = s.commit c := by
  obtain ⟨n, _ | ⟨d, w⟩, _ | st⟩ := c
  · simp [Commit.dests] at hr
  · simp [Commit.dests] at hr
  all_goals
    obtain rfl : r = d := by simpa [Commit.dests] using hr
    simp only [State.commit, State.writeReg?, State.store?, State.setReg, State.setMemWord,
      Regs.set_set_same]

/-- A meaning that makes one commit accesses the registers its commit is computed from and the one the
commit writes. -/
theorem accessesOnly_commit {plan : State → Commit} {reads writes : List RegIdx}
    (hplan : ∀ s r v, r ∉ reads → plan (s.setReg r v) = plan s)
    (hdests : ∀ s, (plan s).dests = writes) :
    AccessesOnly (fun s => .next (s.commit (plan s))) reads writes := by
  rintro s _ r v ⟨rfl⟩
  rw [← hdests s]
  refine ⟨fun q => commit_reg_of_not_mem_dests s, fun hr hw => ?_, fun hr hw _ _ => ?_⟩
  · simp only [hplan s r v hr, commit_setReg_of_not_mem_dests s hw v]
  · simp only [hplan s r v hr, commit_setReg_of_mem_dests s hw v]

/-- A check before the meaning, with a fault where it fails, accesses no further register when the check
and the fault are computed from those the meaning reads. -/
theorem accessesOnly_checked {ok : State → Bool} {fault : State → Fault}
    {m : State → Host.Outcome State Fault Refusal} {reads writes : List RegIdx}
    (hok : ∀ s r v, r ∉ reads → ok (s.setReg r v) = ok s)
    (hfault : ∀ s r v, r ∉ reads → fault (s.setReg r v) = fault s)
    (hm : AccessesOnly m reads writes) :
    AccessesOnly (fun s => if ok s then m s else .next (s.takeFault (fault s))) reads writes := by
  intro s t r v h
  cases hs : ok s with
  | true =>
    simp only [hs, if_true] at h
    obtain ⟨hkeep, hunnamed, hwritten⟩ := hm s t r v h
    refine ⟨hkeep, fun hr hw => ?_, fun hr hw hrun hrun' => ?_⟩
    · simpa [hok s r v hr, hs] using hunnamed hr hw
    · simpa [hok s r v hr, hs] using hwritten hr hw hrun hrun'
  | false =>
    simp only [hs, Bool.false_eq_true, if_false] at h
    cases h
    refine ⟨fun q _ => rfl, fun hr _ => ?_, fun _ _ hrun hrun' => ?_⟩
    · simp [hok s r v hr, hs, hfault s r v hr]
    · simp [hrun'] at hrun

/-- Settles O42: every instruction makes one commit (`accessesOnly_commit`), `lw` and `sw` after a check
of the address (`accessesOnly_checked`). -/
theorem instructionsReadOnlyTheRegistersTheyName :
    Obligations.InstructionsReadOnlyTheRegistersTheyName := by
  unfold Obligations.InstructionsReadOnlyTheRegistersTheyName
  intro i
  cases i with
  | lw rs rt imm16 | sw rs rt imm16 =>
    refine accessesOnly_checked (fun s r v hr => ?_) (fun s r v hr => ?_)
      (accessesOnly_commit (fun s r v hr => ?_) fun _ => rfl) <;>
    simp [State.ea, reg_setReg_unread hr]
  | _ =>
    refine accessesOnly_commit (fun s r v hr => ?_) fun _ => rfl
    simp [reg_setReg_unread hr]

end Sys2Proof.Machine
end

section
/-! PROOF. The obligations of spec/30_encoding.md on words and records: where each field stands (R81 to
R83), the raw fields both ways (R120), the format (R84), the widened immediate (R85) and the jump target
(R86). First the words and their slices as numbers, then what the decoder answers by format. -/

namespace Sys2Proof

/-! ## Words and slices as numbers -/

/-- A concatenation as a number: the high part stands above the bits of the low one. -/
theorem toNat_append {n m : Nat} (x : BitVec n) (y : BitVec m) :
    (x ++ y).toNat = x.toNat * 2 ^ m + y.toNat := by
  rw [BitVec.toNat_append, ← Nat.shiftLeft_add_eq_or_of_lt y.isLt, Nat.shiftLeft_eq]

/-- The lowest bits of a vector are a remainder. -/
theorem toNat_extractLsb'_zero {n : Nat} (x : BitVec n) (len : Nat) :
    (x.extractLsb' 0 len).toNat = x.toNat % 2 ^ len := by
  rw [BitVec.extractLsb'_toNat, Nat.shiftRight_zero]

/-- The highest bits of a vector are a quotient. -/
theorem toNat_extractLsb'_top {lo len : Nat} (x : BitVec (lo + len)) :
    (x.extractLsb' lo len).toNat = x.toNat / 2 ^ lo := by
  rw [BitVec.extractLsb'_toNat, Nat.shiftRight_eq_div_pow]
  exact Nat.mod_eq_of_lt (Nat.div_lt_of_lt_mul (Nat.pow_add 2 lo len ▸ x.isLt))

/-- The opcode is the word divided by `2^26` (R111). -/
theorem opcodeField_toNat (word : Word) : (opcodeField word).toNat = word.toNat / 2 ^ 26 := by
  rw [opcodeField_eq]
  exact toNat_extractLsb'_top (lo := 26) (len := 6) word

theorem top4_toNat (v : Word) : (top4 v).toNat = v.toNat / 2 ^ 28 :=
  toNat_extractLsb'_top (lo := 28) (len := 4) v

theorem assembleR_toNat (opcode : BitVec 6) (rs rt rd : RegIdx) (shamt : BitVec 5)
    (funct : BitVec 6) :
    (assembleR opcode rs rt rd shamt funct).toNat =
      opcode.toNat * 2 ^ 26 + rs.toNat * 2 ^ 21 + rt.toNat * 2 ^ 16 + rd.toNat * 2 ^ 11 +
        shamt.toNat * 2 ^ 6 + funct.toNat := by
  simp only [assembleR, toNat_append]
  ring

theorem assembleI_toNat (opcode : BitVec 6) (rs rt : RegIdx) (imm16 : BitVec 16) :
    (assembleI opcode rs rt imm16).toNat =
      opcode.toNat * 2 ^ 26 + rs.toNat * 2 ^ 21 + rt.toNat * 2 ^ 16 + imm16.toNat := by
  simp only [assembleI, toNat_append]
  ring

theorem assembleJ_toNat (opcode : BitVec 6) (target26 : BitVec 26) :
    (assembleJ opcode target26).toNat = opcode.toNat * 2 ^ 26 + target26.toNat :=
  toNat_append opcode target26

/-- Settles O2: a word is a concatenation, `toNat_append` gives each field its place; the codes are read
off the selector table. -/
theorem assembledWordsPlaceEachField : Obligations.AssembledWordsPlaceEachField := by
  unfold Obligations.AssembledWordsPlaceEachField
  exact ⟨assembleR_toNat, assembleI_toNat, assembleJ_toNat, by decide, by decide⟩

/-! ## The format and the decoded record -/

theorem formatOf_eq_r_iff (opcode : BitVec 6) : formatOf opcode = .r ↔ opcode = 0x00 := by
  unfold formatOf
  split_ifs <;> simp_all

theorem formatOf_eq_j_iff (opcode : BitVec 6) :
    formatOf opcode = .j ↔ opcode = 0x02 ∨ opcode = 0x03 := by
  have hj : codeOf .j = 0x02 := rfl
  have hjal : codeOf .jal = 0x03 := rfl
  rw [← hj, ← hjal]
  unfold formatOf
  split_ifs with hr h
  · simp [hr, hj, hjal]
  · simp [h]
  · simp [h]

theorem formatOf_eq_i_iff (opcode : BitVec 6) :
    formatOf opcode = .i ↔ opcode ≠ 0x00 ∧ opcode ≠ 0x02 ∧ opcode ≠ 0x03 := by
  have hr := formatOf_eq_r_iff opcode
  have hj := formatOf_eq_j_iff opcode
  rw [← not_or, ne_eq, ← hr, ← hj]
  cases formatOf opcode <;> simp

/-- The record of an R-format word: its raw fields, and the operation its funct selects. -/
theorem decode_of_format_r {word : Word} (h : formatOf (opcodeField word) = .r) (pc : Word) :
    decode word pc =
      .r (opcodeField word) (word.extractLsb' 21 5) (word.extractLsb' 16 5)
        (word.extractLsb' 11 5) (word.extractLsb' 6 5) (word.extractLsb' 0 6)
        (lookupOp .r (word.extractLsb' 0 6)) := by
  simp [decode, h]

/-- The record of an I-format word: its raw fields, and the operation its opcode selects. -/
theorem decode_of_format_i {word : Word} (h : formatOf (opcodeField word) = .i) (pc : Word) :
    decode word pc =
      .i (opcodeField word) (word.extractLsb' 21 5) (word.extractLsb' 16 5)
        (word.extractLsb' 0 16) (widen (lookupOp .i (opcodeField word)) (word.extractLsb' 0 16))
        (lookupOp .i (opcodeField word)) := by
  simp [decode, h]

/-- The record of a J-format word: its raw fields, and the operation its opcode selects. -/
theorem decode_of_format_j {word : Word} (h : formatOf (opcodeField word) = .j) (pc : Word) :
    decode word pc =
      .j (opcodeField word) (word.extractLsb' 0 26) (jumpTarget pc (word.extractLsb' 0 26))
        (lookupOp .j (opcodeField word)) := by
  simp [decode, h]

/-- The decoder forms a record of the format its opcode selects (R112). -/
@[simp] theorem decode_format (word pc : Word) :
    (decode word pc).format = formatOf (opcodeField word) := by
  cases h : formatOf (opcodeField word) with
  | r => rw [decode_of_format_r h]; rfl
  | i => rw [decode_of_format_i h]; rfl
  | j => rw [decode_of_format_j h]; rfl

/-- The word assembled from the raw fields of a decoded record is the word decoded (R120). -/
theorem decode_word (word pc : Word) : (decode word pc).word = word := by
  cases h : formatOf (opcodeField word) with
  | r => rw [decode_of_format_r h]; exact assembleR_fields word
  | i => rw [decode_of_format_i h]; exact assembleI_fields word
  | j => rw [decode_of_format_j h]; exact assembleJ_fields word

/-- An R-format word decodes to the fields it was assembled from. -/
theorem decode_assembleR {opcode : BitVec 6} (h : formatOf opcode = .r) (rs rt rd : RegIdx)
    (shamt : BitVec 5) (funct : BitVec 6) (pc : Word) :
    decode (assembleR opcode rs rt rd shamt funct) pc =
      .r opcode rs rt rd shamt funct (lookupOp .r funct) := by
  rw [decode_of_format_r (by rwa [opcodeField_assembleR])]
  simp

/-- An I-format word decodes to the fields it was assembled from. -/
theorem decode_assembleI {opcode : BitVec 6} (h : formatOf opcode = .i) (rs rt : RegIdx)
    (imm16 : BitVec 16) (pc : Word) :
    decode (assembleI opcode rs rt imm16) pc =
      .i opcode rs rt imm16 (widen (lookupOp .i opcode) imm16) (lookupOp .i opcode) := by
  rw [decode_of_format_i (by rwa [opcodeField_assembleI])]
  simp

/-- A J-format word decodes to the fields it was assembled from. -/
theorem decode_assembleJ {opcode : BitVec 6} (h : formatOf opcode = .j) (target26 : BitVec 26)
    (pc : Word) :
    decode (assembleJ opcode target26) pc =
      .j opcode target26 (jumpTarget pc target26) (lookupOp .j opcode) := by
  rw [decode_of_format_j (by rwa [opcodeField_assembleJ])]
  simp

/-- Settles O3: the record of an assembled word, by format, and `decode_word`. -/
theorem rawFieldsRoundTrip : Obligations.RawFieldsRoundTrip := by
  unfold Obligations.RawFieldsRoundTrip
  refine ⟨?r, ?i, ?j, decode_word⟩
  case r => exact decode_assembleR ((formatOf_eq_r_iff 0).2 rfl)
  case i =>
    intro opcode rs rt imm16 pc h0 h2 h3
    exact decode_assembleI ((formatOf_eq_i_iff opcode).2 ⟨h0, h2, h3⟩) rs rt imm16 pc
  case j =>
    intro opcode target26 pc hop
    exact decode_assembleJ ((formatOf_eq_j_iff opcode).2 hop) target26 pc

/-- Settles O6: the format of the record is that of the opcode, which is the word divided by `2^26`. -/
theorem formatIsClassifiedByTheOpcode : Obligations.FormatIsClassifiedByTheOpcode := by
  unfold Obligations.FormatIsClassifiedByTheOpcode
  intro word pc
  have opcode_eq_iff (code : BitVec 6) :
      opcodeField word = code ↔ word.toNat / 2 ^ 26 = code.toNat := by
    rw [← opcodeField_toNat, BitVec.toNat_inj]
  simp only [decode_format, formatOf_eq_r_iff, formatOf_eq_j_iff, formatOf_eq_i_iff, ne_eq,
    opcode_eq_iff]
  exact ⟨.rfl, .rfl, .rfl⟩

/-! ## The widened immediate -/

/-- An operation the table selects has the code it was selected by: the table read both ways (R90,
R91). -/
theorem codeOf_lookupOp {format : Format} {code : BitVec 6} {op : Op}
    (h : lookupOp format code = op) (hop : op ≠ .unsupported) : codeOf op = code := by
  have table : ∀ row ∈ selectorTable, codeOf row.op = row.code := by decide
  unfold lookupOp at h
  split at h
  · next row hfind =>
    have hrow : row.format = format ∧ row.code = code := by simpa using List.find?_some hfind
    rw [← h, table row (List.mem_of_find?_eq_some hfind), hrow.2]
  · exact absurd h.symm hop

/-- An operation but `andi`, `ori` and `lui` widens the immediate by its sign (R85). -/
theorem widen_eq_sext32 {op : Op} (handi : op ≠ .andi) (hori : op ≠ .ori) (hlui : op ≠ .lui)
    (imm16 : BitVec 16) : widen op imm16 = sext32 imm16 := by
  cases op with
  | andi | ori | lui => contradiction
  | _ => rfl

theorem zext32_toNat (v : BitVec 16) : (zext32 v).toNat = v.toNat :=
  BitVec.toNat_setWidth_of_le (by decide)

theorem sext32_toInt (v : BitVec 16) :
    (sext32 v).toInt = if v.toNat < 32768 then (v.toNat : Int) else v.toNat - 65536 := by
  rw [sext32, BitVec.toInt_signExtend_of_le (by decide), BitVec.toInt_eq_toNat_cond]
  split_ifs <;> omega

/-- What a record of I-format says of its word. -/
theorem of_decode_eq_i {word pc : Word} {opcode : BitVec 6} {rs rt : RegIdx} {imm16 : BitVec 16}
    {imm32 : Word} {op : Op} (h : decode word pc = .i opcode rs rt imm16 imm32 op) :
    imm16 = word.extractLsb' 0 16 ∧ imm32 = widen (lookupOp .i opcode) imm16 := by
  have hformat : formatOf (opcodeField word) = .i := by rw [← decode_format word pc, h]; rfl
  rw [decode_of_format_i hformat] at h
  cases h
  exact ⟨rfl, rfl⟩

/-- Settles O8: the policy goes by the operation, and the operation by the opcode (`codeOf_lookupOp`). -/
theorem immediateWideningFollowsTheOpcode : Obligations.ImmediateWideningFollowsTheOpcode := by
  unfold Obligations.ImmediateWideningFollowsTheOpcode
  intro word pc opcode rs rt imm16 imm32 op h
  obtain ⟨himm16, rfl⟩ := of_decode_eq_i h
  refine ⟨himm16 ▸ toNat_extractLsb'_zero word 16, ?zero, ?sign⟩
  case zero => rintro (rfl | rfl | rfl) <;> exact zext32_toNat imm16
  case sign =>
    intro handi hori hlui
    rw [widen_eq_sext32, sext32_toInt]
    · exact fun e => handi (codeOf_lookupOp e (by decide)).symm
    · exact fun e => hori (codeOf_lookupOp e (by decide)).symm
    · exact fun e => hlui (codeOf_lookupOp e (by decide)).symm

/-! ## The jump target -/

/-- The J-format target as a number (R86). -/
theorem jumpTarget_toNat (pc : Word) (target26 : BitVec 26) :
    (jumpTarget pc target26).toNat =
      (pc.toNat + 4) % 2 ^ 32 / 2 ^ 28 * 2 ^ 28 + target26.toNat * 4 := by
  have htop : (top4 (pc + 4)).toNat = (pc.toNat + 4) % 2 ^ 32 / 2 ^ 28 := top4_toNat (pc + 4)
  have hlow : (0 : BitVec 2).toNat = 0 := rfl
  rw [jumpTarget, toNat_append, toNat_append, htop, hlow]
  ring

/-- What a record of J-format says of its word. -/
theorem of_decode_eq_j {word pc : Word} {opcode : BitVec 6} {target26 : BitVec 26}
    {target : Word} {op : Op} (h : decode word pc = .j opcode target26 target op) :
    target26 = word.extractLsb' 0 26 ∧ target = jumpTarget pc target26 := by
  have hformat : formatOf (opcodeField word) = .j := by rw [← decode_format word pc, h]; rfl
  rw [decode_of_format_j hformat] at h
  cases h
  exact ⟨rfl, rfl⟩

/-- Settles O9: the record's target is `jumpTarget` of its field. -/
theorem jumpTargetJoinsTopBitsAndField : Obligations.JumpTargetJoinsTopBitsAndField := by
  unfold Obligations.JumpTargetJoinsTopBitsAndField
  intro word pc opcode target26 target op h
  obtain ⟨hfield, rfl⟩ := of_decode_eq_j h
  exact ⟨hfield ▸ toNat_extractLsb'_zero word 26, jumpTarget_toNat pc target26,
    Machine.jumpTarget_aligned pc target26⟩

end Sys2Proof
end

section
/-! PROOF. The obligations of spec/41_alu_register.md: the register-register instructions (R130 to R139).
First what a step reports when the blocks complete it (for every family of instructions), then what each
ALU result is as a number or bit by bit. -/

namespace Sys2Proof.Machine

/-! ## What a completed step reports -/

/-- A supported operation has a text (R210, R211). -/
theorem format_eq_some {d : Decoded} {name : String} (h : mnemonicOf d.op = some name) (pc : Word) :
    format d pc = some (Config.formatText d pc (formatOperands d pc)) := by
  simp only [format, h]

/-- The output of a step whose blocks all complete (R198, R201). -/
theorem stepOutput_of_blocks {s : State} {w : Word} {d : Decoded} {text : String} {r : ExecResult}
    {m : AccessResult} (hrun : s.run = .running) (hstop : s.stopAsserted = false)
    (hfetch : s.fetch = some w) (hdec : decode w s.pc = d) (htext : format d s.pc = some text)
    (hexecute : execute d s.pc s.regs = some r) (haccess : access d s.cfg s.mem r.value = some m) :
    stepOutput s = some
      { text := some text, newPC := nextPC d s.pc r.value r.taken, changedReg := writebackReg d,
        changedMem := m.changed, fault := none } := by
  simp [stepOutput, blockStep, hrun, hstop, hfetch, hdec, htext, hexecute, haccess]

/-- An instruction that the blocks complete, with the pc it leads to, reports the blocks' changes. -/
theorem reports_of_blocks {i : Instr} {s t : State} {d : Decoded} {name : String} {r : ExecResult}
    {m : AccessResult} (hdec : decode (encode i) s.pc = d) (hname : mnemonicOf d.op = some name)
    (hexecute : execute d s.pc s.regs = some r) (haccess : access d s.cfg s.mem r.value = some m)
    (hexec : exec i s = .next t) (hpc : nextPC d s.pc r.value r.taken = t.pc) :
    Reports s i (writebackReg d) m.changed := by
  intro hrun hstop hfetch
  exact ⟨t, _, hexec, stepOutput_of_blocks hrun hstop hfetch hdec (format_eq_some hname s.pc)
    hexecute haccess, hpc, rfl, rfl, rfl⟩

/-- The operations that compute from registers into `rd`. -/
def aluRegisterOps : List Op := [.addu, .subu, .and, .or, .xor, .nor, .slt, .sll, .srl]

/-- A register-register instruction reports `rd` as changed and no address (R191, R198). -/
theorem reports_rd {i : Instr} {op : Op} {rs rt rd : RegIdx} {shamt : BitVec 5} {s : State} {v : Word}
    (hop : op ∈ aluRegisterOps) (hword : encode i = assembleR 0 rs rt rd shamt (codeOf op))
    (hexec : exec i s = .next (s.commitResult rd v)) : Reports s i (some rd) none := by
  have hdec : decode (encode i) s.pc =
      .r 0 rs rt rd shamt (codeOf op) (lookupOp .r (codeOf op)) :=
    hword ▸ decode_assembleR (by decide) rs rt rd shamt (codeOf op) s.pc
  simp only [aluRegisterOps, List.mem_cons, List.not_mem_nil, or_false] at hop
  obtain rfl | rfl | rfl | rfl | rfl | rfl | rfl | rfl | rfl := hop <;>
    exact reports_of_blocks hdec rfl rfl rfl hexec rfl

/-- An instruction that commits a result completes, with the frame of `ComputesInto`; what is known of the
result is known of the value the destination holds. -/
theorem exec_computesInto {i : Instr} {s : State} {d : RegIdx} {v : Word} {P : Word → Prop}
    (hexec : exec i s = .next (s.commitResult d v)) (hv : P v) :
    ∃ t, exec i s = .next t ∧ ∃ v, ComputesInto s t d v ∧ P v :=
  ⟨_, hexec, v, commitResult_computesInto s d v, hv⟩

/-! ## The results -/

/-- The sum wraps (R131, D10). -/
theorem aluAdd_toNat (a b : Word) : (aluAdd a b).toNat = (a.toNat + b.toNat) % 2 ^ 32 :=
  BitVec.toNat_add a b

/-- The difference is the first operand minus the second, and wraps (R132, D10, G5). -/
theorem aluSub_toNat (a b : Word) : (aluSub a b).toNat = (a.toNat + 2 ^ 32 - b.toNat) % 2 ^ 32 := by
  rw [aluSub, BitVec.toNat_sub]
  have := b.isLt
  congr 1
  omega

theorem aluAnd_getLsbD (a b : Word) (k : Nat) :
    (aluAnd a b).getLsbD k = (a.getLsbD k && b.getLsbD k) :=
  BitVec.getLsbD_and

theorem aluOr_getLsbD (a b : Word) (k : Nat) :
    (aluOr a b).getLsbD k = (a.getLsbD k || b.getLsbD k) :=
  BitVec.getLsbD_or

theorem aluXor_getLsbD (a b : Word) (k : Nat) :
    (aluXor a b).getLsbD k = (a.getLsbD k ^^ b.getLsbD k) :=
  BitVec.getLsbD_xor

/-- Only the 32 bits of the word are inverted, so the bound is needed (R136). -/
theorem aluNor_getLsbD (a b : Word) {k : Nat} (hk : k < 32) :
    (aluNor a b).getLsbD k = !(a.getLsbD k || b.getLsbD k) := by
  simp [aluNor, hk]

/-- A left shift multiplies, and loses the bits past bit 31 (R138). -/
theorem shiftLeft_toNat (v : Word) (shamt : BitVec 5) :
    (shiftLeft v shamt).toNat = v.toNat * 2 ^ shamt.toNat % 2 ^ 32 := by
  rw [shiftLeft, BitVec.toNat_shiftLeft, Nat.shiftLeft_eq]

/-- A right shift divides the unsigned number, whatever the sign (R139). -/
theorem shiftRight_toNat (v : Word) (shamt : BitVec 5) :
    (shiftRight v shamt).toNat = v.toNat / 2 ^ shamt.toNat := by
  rw [shiftRight, BitVec.toNat_ushiftRight, Nat.shiftRight_eq_div_pow]

/-! ## The obligations -/

/-- Settles O11: both commit a result (`exec_computesInto`), the wrapped sum and difference. -/
theorem adduSubuWriteTheWrappedResult : Obligations.AdduSubuWriteTheWrappedResult := by
  unfold Obligations.AdduSubuWriteTheWrappedResult
  intro rs rt rd shamt s
  exact ⟨rfl, rfl,
    exec_computesInto rfl (aluAdd_toNat _ _), exec_computesInto rfl (aluSub_toNat _ _),
    reports_rd (op := .addu) (by decide) rfl rfl, reports_rd (op := .subu) (by decide) rfl rfl⟩

/-- Settles O12: each of the four commits a result, whose bits the `getLsbD` lemma of its operation
gives. -/
theorem bitwiseInstructionsCombineEachBit : Obligations.BitwiseInstructionsCombineEachBit := by
  unfold Obligations.BitwiseInstructionsCombineEachBit
  intro rs rt rd shamt s
  exact ⟨rfl, rfl, rfl, rfl,
    exec_computesInto rfl fun k _ => aluAnd_getLsbD _ _ k,
    exec_computesInto rfl fun k _ => aluOr_getLsbD _ _ k,
    exec_computesInto rfl fun k _ => aluXor_getLsbD _ _ k,
    exec_computesInto rfl fun _ hk => aluNor_getLsbD _ _ hk,
    reports_rd (op := .and) (by decide) rfl rfl, reports_rd (op := .or) (by decide) rfl rfl,
    reports_rd (op := .xor) (by decide) rfl rfl, reports_rd (op := .nor) (by decide) rfl rfl⟩

/-- Settles O13: the result is `setLessThan`, whose two branches are the two outcomes. -/
theorem sltComparesSignedNumbers : Obligations.SltComparesSignedNumbers := by
  unfold Obligations.SltComparesSignedNumbers
  intro rs rt rd shamt s
  exact ⟨rfl, exec_computesInto rfl ⟨fun h => if_pos h, fun h => if_neg h⟩,
    reports_rd (op := .slt) (by decide) rfl rfl⟩

/-- Settles O14: both commit a result, the product or the unsigned quotient. -/
theorem shiftsMultiplyAndDivideByPowersOfTwo :
    Obligations.ShiftsMultiplyAndDivideByPowersOfTwo := by
  unfold Obligations.ShiftsMultiplyAndDivideByPowersOfTwo
  intro rs rt rd shamt s
  exact ⟨rfl, rfl,
    exec_computesInto rfl (shiftLeft_toNat _ _), exec_computesInto rfl (shiftRight_toNat _ _),
    reports_rd (op := .sll) (by decide) rfl rfl, reports_rd (op := .srl) (by decide) rfl rfl⟩

end Sys2Proof.Machine
end

section
/-! PROOF. The obligations of spec/42_alu_immediate.md: the register-immediate instructions (R150 to
R154). First what they report, then each result with its widened immediate as a number or bit by bit. -/

namespace Sys2Proof.Machine

/-! ## What a register-immediate instruction reports -/

/-- The operations that compute from a register and the immediate into `rt`. -/
def aluImmediateOps : List Op := [.addiu, .andi, .ori, .lui]

/-- A register-immediate instruction reports `rt` as changed and no address (R191, R198). -/
theorem reports_rt {i : Instr} {op : Op} {rs rt : RegIdx} {imm16 : BitVec 16} {s : State} {v : Word}
    (hop : op ∈ aluImmediateOps) (hword : encode i = assembleI (codeOf op) rs rt imm16)
    (hexec : exec i s = .next (s.commitResult rt v)) : Reports s i (some rt) none := by
  have hformat : ∀ op ∈ aluImmediateOps, formatOf (codeOf op) = .i := by decide
  have hdec : decode (encode i) s.pc =
      .i (codeOf op) rs rt imm16 (widen (lookupOp .i (codeOf op)) imm16)
        (lookupOp .i (codeOf op)) :=
    hword ▸ decode_assembleI (hformat op hop) rs rt imm16 s.pc
  simp only [aluImmediateOps, List.mem_cons, List.not_mem_nil, or_false] at hop
  obtain rfl | rfl | rfl | rfl := hop <;>
    exact reports_of_blocks hdec rfl rfl rfl hexec rfl

/-! ## The results -/

/-- After the commit of a result its destination holds it, every other register what it held (R130). -/
theorem commitResult_reg (s : State) (d r : RegIdx) (v : Word) :
    (s.commitResult d v).reg r = if r = d then v else s.reg r :=
  commit_reg_of_reg s r d v { nextPC := nextSequential s.pc, reg := some (d, v) } rfl

/-- The sum with the signed immediate, wrapped: the unsigned and the signed reading of the widened
immediate differ by 0 or 2^32 (R151, D10). -/
theorem aluAdd_sext32_toNat (a : Word) (v : BitVec 16) :
    ((aluAdd a (sext32 v)).toNat : Int) =
      ((a.toNat : Int) + (if v.toNat < 32768 then (v.toNat : Int) else v.toNat - 65536)) % 2 ^ 32 := by
  rw [aluAdd_toNat, ← sext32_toInt, BitVec.toInt_eq_toNat_cond]
  split_ifs <;> omega

/-- The widened immediate has the immediate's bits, and zeros above bit 15 (R85). -/
theorem zext32_getLsbD (v : BitVec 16) {k : Nat} (hk : k < 32) :
    (zext32 v).getLsbD k = if k < 16 then v.getLsbD k else false := by
  rw [zext32, BitVec.zeroExtend, BitVec.getLsbD_setWidth, decide_eq_true hk, Bool.true_and]
  split_ifs with h
  · rfl
  · exact BitVec.getLsbD_of_ge v k (by omega)

/-- The upper half of the `and` is zero (R152). -/
theorem aluAnd_zext32_getLsbD (a : Word) (v : BitVec 16) {k : Nat} (hk : k < 32) :
    (aluAnd a (zext32 v)).getLsbD k =
      if k < 16 then (a.getLsbD k && v.getLsbD k) else false := by
  rw [aluAnd_getLsbD, zext32_getLsbD v hk]
  split_ifs <;> simp

/-- The upper half of the `or` is the operand's (R153). -/
theorem aluOr_zext32_getLsbD (a : Word) (v : BitVec 16) {k : Nat} (hk : k < 32) :
    (aluOr a (zext32 v)).getLsbD k =
      if k < 16 then (a.getLsbD k || v.getLsbD k) else a.getLsbD k := by
  rw [aluOr_getLsbD, zext32_getLsbD v hk]
  split_ifs <;> simp

/-- The upper immediate as a shifted number: no bit of the halfword is lost (R88, R154). -/
theorem upperImmediate_zext32_toNat (v : BitVec 16) :
    (upperImmediate (zext32 v)).toNat = v.toNat <<< 16 := by
  have hv := v.isLt
  rw [upperImmediate, BitVec.toNat_shiftLeft, zext32_toNat, Nat.mod_eq_of_lt]
  rw [Nat.shiftLeft_eq]
  omega

/-- The two halves of the constant do not overlap, so their `or` is their sum (R153). -/
theorem aluOr_upperImmediate_toNat (hi lo : BitVec 16) :
    (aluOr (upperImmediate (zext32 hi)) (zext32 lo)).toNat = hi.toNat * 2 ^ 16 + lo.toNat := by
  rw [aluOr, BitVec.toNat_or, upperImmediate_zext32_toNat, zext32_toNat,
    ← Nat.shiftLeft_add_eq_or_of_lt lo.isLt, Nat.shiftLeft_eq]

/-! ## The obligations -/

/-- Settles O15: it commits a result, the wrapped sum with the signed immediate. -/
theorem addiuAddsTheSignedImmediate : Obligations.AddiuAddsTheSignedImmediate := by
  unfold Obligations.AddiuAddsTheSignedImmediate
  intro rs rt imm16 s
  exact ⟨rfl, exec_computesInto rfl (aluAdd_sext32_toNat _ _),
    reports_rt (op := .addiu) (by decide) rfl rfl⟩

/-- Settles O16: both commit a result, whose two halves the `zext32` lemma of the operation gives. -/
theorem andiOriUseTheZeroExtendedImmediate : Obligations.AndiOriUseTheZeroExtendedImmediate := by
  unfold Obligations.AndiOriUseTheZeroExtendedImmediate
  intro rs rt imm16 s
  exact ⟨rfl, rfl,
    exec_computesInto rfl fun _ hk => aluAnd_zext32_getLsbD _ _ hk,
    exec_computesInto rfl fun _ hk => aluOr_zext32_getLsbD _ _ hk,
    reports_rt (op := .andi) (by decide) rfl rfl, reports_rt (op := .ori) (by decide) rfl rfl⟩

/-- Settles O17: it commits a result, the shifted immediate; no register is read. -/
theorem luiWritesTheUpperHalfword : Obligations.LuiWritesTheUpperHalfword := by
  unfold Obligations.LuiWritesTheUpperHalfword
  intro rs rt imm16 s
  exact ⟨rfl,
    exec_computesInto rfl ((upperImmediate_zext32_toNat imm16).trans (Nat.shiftLeft_eq _ _)),
    reports_rt (op := .lui) (by decide) rfl rfl⟩

/-- Settles O25: each of the two commits writes `rt` only, and the second reads what the first wrote. -/
theorem luiThenOriBuildsTheConstant : Obligations.LuiThenOriBuildsTheConstant := by
  unfold Obligations.LuiThenOriBuildsTheConstant
  intro rs rt hi lo s
  refine ⟨_, _, rfl, rfl, ?constant, fun r hr => ?others⟩
  case constant =>
    rw [commitResult_reg, if_pos rfl, commitResult_reg, if_pos rfl, aluOr_upperImmediate_toNat]
  case others => rw [commitResult_reg, if_neg hr, commitResult_reg, if_neg hr]

end Sys2Proof.Machine
end

section
/-! PROOF. The obligations of spec/43_control_transfer.md: the branches and jumps (R160 to R169). First
the frames of the commits they make, then the branch target as a number, with its signed offset. -/

namespace Sys2Proof.Machine

/-! ## The frames -/

/-- An instruction that commits a pc alone completes, with the frame of `OnlyMovesPc`; what is known of
the committed pc is known of the target. -/
theorem exec_onlyMovesPc {i : Instr} {s : State} {n : Word} {P : Word → Prop}
    (hexec : exec i s = .next (s.commit { nextPC := n })) (hn : P n) :
    ∃ t, exec i s = .next t ∧ ∃ target, OnlyMovesPc s t target ∧ P target :=
  ⟨_, hexec, n, commit_onlyMovesPc s n, hn⟩

/-- The commit of a pc and one register writes that register only, and no byte of memory. -/
theorem commit_writesOnly (s : State) (n : Word) (d : RegIdx) (v : Word) :
    WritesOnly s (s.commit { nextPC := n, reg := some (d, v) }) d v ∧
      SameMemory s (s.commit { nextPC := n, reg := some (d, v) }) ∧
      SameControl s (s.commit { nextPC := n, reg := some (d, v) }) := by
  refine ⟨⟨?dest, fun r hr => ?others⟩, fun a => ?memory, commit_run s _, commit_cfg s _,
    commit_stopReq s _⟩
  case dest => rw [commit_reg_of_reg _ _ _ _ _ rfl, if_pos rfl]
  case others => rw [commit_reg_of_reg _ _ _ _ _ rfl, if_neg hr]
  case memory => rw [commit_mem_of_no_store _ _ rfl]

/-! ## The branches -/

/-- The sequential pc wraps (R160). -/
theorem nextSequential_toNat (pc : Word) : (nextSequential pc).toNat = (pc.toNat + 4) % 2 ^ 32 :=
  BitVec.toNat_add pc 4

/-- The target of a taken branch, wrapped: the unsigned and the signed reading of the widened immediate
differ by 0 or 2^32 (R160 to R162). -/
theorem branchTarget_sext32_toNat (pc : Word) (v : BitVec 16) :
    ((branchTarget pc (branchOffset (sext32 v))).toNat : Int) =
      ((pc.toNat : Int) + 4 +
        4 * (if v.toNat < 32768 then (v.toNat : Int) else v.toNat - 65536)) % 2 ^ 32 := by
  rw [branchTarget, branchOffset_eq_mul, BitVec.toNat_add, BitVec.toNat_mul, nextSequential_toNat,
    ← sext32_toInt, BitVec.toInt_eq_toNat_cond, show (4 : Word).toNat = 4 from rfl]
  split_ifs <;> omega

/-- An instruction that commits a branch completes and moves only the pc: by the offset under a condition
`p` that takes the branch, past the branch under a condition `q` that does not. -/
theorem exec_branch {i : Instr} {s : State} {taken : Bool} {imm16 : BitVec 16} {p q : Prop}
    (hexec : exec i s = .next (s.commitBranch taken imm16))
    (hp : p → taken = true) (hq : q → taken = false) :
    ∃ t, exec i s = .next t ∧ ∃ target, OnlyMovesPc s t target ∧
      (p → (target.toNat : Int) = ((s.pc.toNat : Int) + 4 + 4 *
        (if imm16.toNat < 32768 then (imm16.toNat : Int) else imm16.toNat - 65536)) % 2 ^ 32) ∧
      (q → target.toNat = (s.pc.toNat + 4) % 2 ^ 32) := by
  refine exec_onlyMovesPc hexec ⟨fun h => ?taken, fun h => ?notTaken⟩
  case taken =>
    rw [hp h, if_pos rfl]
    exact branchTarget_sext32_toNat s.pc imm16
  case notTaken =>
    rw [hq h, if_neg Bool.false_ne_true]
    exact nextSequential_toNat s.pc

/-! ## The records of the five instructions -/

theorem decode_encode_beq (rs rt : RegIdx) (imm16 : BitVec 16) (pc : Word) :
    decode (encode (.beq rs rt imm16)) pc =
      .i (codeOf .beq) rs rt imm16 (sext32 imm16) .beq :=
  decode_assembleI (by decide) rs rt imm16 pc

theorem decode_encode_bne (rs rt : RegIdx) (imm16 : BitVec 16) (pc : Word) :
    decode (encode (.bne rs rt imm16)) pc =
      .i (codeOf .bne) rs rt imm16 (sext32 imm16) .bne :=
  decode_assembleI (by decide) rs rt imm16 pc

theorem decode_encode_j (target26 : BitVec 26) (pc : Word) :
    decode (encode (.j target26)) pc = .j (codeOf .j) target26 (jumpTarget pc target26) .j :=
  decode_assembleJ (by decide) target26 pc

theorem decode_encode_jal (target26 : BitVec 26) (pc : Word) :
    decode (encode (.jal target26)) pc = .j (codeOf .jal) target26 (jumpTarget pc target26) .jal :=
  decode_assembleJ (by decide) target26 pc

theorem decode_encode_jr (rs rt rd : RegIdx) (shamt : BitVec 5) (pc : Word) :
    decode (encode (.jr rs rt rd shamt)) pc = .r 0 rs rt rd shamt (codeOf .jr) .jr :=
  decode_assembleR (by decide) rs rt rd shamt (codeOf .jr) pc

/-! ## The obligations -/

/-- Settles O18: both commit a branch (`exec_branch`), on equal and on different registers. -/
theorem branchesMoveOnlyThePc : Obligations.BranchesMoveOnlyThePc := by
  unfold Obligations.BranchesMoveOnlyThePc
  intro rs rt imm16 s
  exact ⟨rfl, rfl,
    exec_branch rfl beq_iff_eq.2 beq_eq_false_iff_ne.2,
    exec_branch rfl bne_iff_ne.2 bne_eq_false_iff_eq.2,
    reports_of_blocks (decode_encode_beq rs rt imm16 s.pc) rfl rfl rfl rfl rfl,
    reports_of_blocks (decode_encode_bne rs rt imm16 s.pc) rfl rfl rfl rfl rfl⟩

/-- Settles O19: both commit the target of `jumpTarget_toNat`; the link is the sequential pc of the
state the `jal` starts from. -/
theorem jumpsGoToTheTargetAndJalLinks : Obligations.JumpsGoToTheTargetAndJalLinks := by
  unfold Obligations.JumpsGoToTheTargetAndJalLinks
  intro target26 s
  exact ⟨rfl, rfl,
    exec_onlyMovesPc rfl (jumpTarget_toNat s.pc target26),
    ⟨_, rfl, jumpTarget_toNat s.pc target26, commit_writesOnly s _ linkReg (nextSequential s.pc)⟩,
    reports_of_blocks (decode_encode_j target26 s.pc) rfl rfl rfl rfl rfl,
    reports_of_blocks (decode_encode_jal target26 s.pc) rfl rfl rfl rfl rfl⟩

/-- Settles O20: it commits the register it names as the pc; nothing checks its alignment. -/
theorem jrCopiesTheNamedRegister : Obligations.JrCopiesTheNamedRegister := by
  unfold Obligations.JrCopiesTheNamedRegister
  intro rs rt rd shamt s
  exact ⟨rfl, ⟨_, rfl, commit_onlyMovesPc s (s.reg rs)⟩,
    reports_of_blocks (decode_encode_jr rs rt rd shamt s.pc) rfl rfl rfl rfl rfl⟩

end Sys2Proof.Machine
end

section
/-! PROOF. The obligations of spec/44_load_store.md: the load and the store (R180 to R184). First what
`exec` answers by the address check and what the blocks report where it passes, then the check at the
ends of the window. -/

namespace Sys2Proof.Machine

/-! ## The two instructions by the address check -/

section ByTheCheck

variable {rs : RegIdx} {imm16 : BitVec 16} {s : State}

/-- A load at an address that passes the check commits the word there (R182). -/
theorem exec_lw_of_memOK (rt : RegIdx) (h : memOK s.cfg (s.ea rs imm16) = true) :
    exec (.lw rs rt imm16) s = .next (s.commitResult rt (s.memWord (s.ea rs imm16))) :=
  if_pos h

/-- A store at an address that passes the check commits the word of `rt` there (R183). -/
theorem exec_sw_of_memOK (rt : RegIdx) (h : memOK s.cfg (s.ea rs imm16) = true) :
    exec (.sw rs rt imm16) s =
      .next (s.commit { nextPC := s.pc + 4, store := some (s.ea rs imm16, s.reg rt) }) :=
  if_pos h

/-- A load at any other address takes the fault (R182, R222). -/
theorem exec_lw_takesFault (rt : RegIdx) (h : ¬ memOK s.cfg (s.ea rs imm16) = true) :
    ∃ t, exec (.lw rs rt imm16) s = .next t ∧
      TakesFault s t (.memoryAccessFault s.pc (s.ea rs imm16)) :=
  ⟨_, if_neg h, takeFault_takesFault s _⟩

/-- A store at any other address takes the fault (R183, R222). -/
theorem exec_sw_takesFault (rt : RegIdx) (h : ¬ memOK s.cfg (s.ea rs imm16) = true) :
    ∃ t, exec (.sw rs rt imm16) s = .next t ∧
      TakesFault s t (.memoryAccessFault s.pc (s.ea rs imm16)) :=
  ⟨_, if_neg h, takeFault_takesFault s _⟩

/-! ## What they report -/

theorem decode_encode_lw (rs rt : RegIdx) (imm16 : BitVec 16) (pc : Word) :
    decode (encode (.lw rs rt imm16)) pc = .i (codeOf .lw) rs rt imm16 (sext32 imm16) .lw :=
  decode_assembleI (by decide) rs rt imm16 pc

theorem decode_encode_sw (rs rt : RegIdx) (imm16 : BitVec 16) (pc : Word) :
    decode (encode (.sw rs rt imm16)) pc = .i (codeOf .sw) rs rt imm16 (sext32 imm16) .sw :=
  decode_assembleI (by decide) rs rt imm16 pc

/-- A load that passes the check reports its destination and no address (R191, R198). -/
theorem reports_lw (rt : RegIdx) (h : memOK s.cfg (s.ea rs imm16) = true) :
    Reports s (.lw rs rt imm16) (some rt) none :=
  reports_of_blocks (decode_encode_lw rs rt imm16 s.pc) rfl rfl (if_pos h)
    (exec_lw_of_memOK rt h) rfl

/-- A store that passes the check reports its address and no register (R192, R198). -/
theorem reports_sw (rt : RegIdx) (h : memOK s.cfg (s.ea rs imm16) = true) :
    Reports s (.sw rs rt imm16) none (some (s.ea rs imm16)) :=
  reports_of_blocks (decode_encode_sw rs rt imm16 s.pc) rfl rfl (if_pos h)
    (exec_sw_of_memOK rt h) rfl

end ByTheCheck

/-! ## The ends of the window -/

/-- The check fails one word below the window, just above it and at a misaligned address; the code
segment has a word, so the address below does not stop at 0 (R7, R184). -/
theorem not_memOK_just_outside {c : Params} (hc : c.wf) {a : Word}
    (h : a.toNat = c.dataLo - 4 ∨ a.toNat = c.dataHi ∨ a.toNat % 4 ≠ 0) : ¬ memOK c a = true := by
  obtain ⟨-, hni, -, -⟩ := hc
  have hlo : c.dataLo - 4 < c.dataLo := by unfold Params.dataLo; omega
  rw [memOK_iff]
  omega

/-- The check passes at the lowest and the highest word of the window, which has a word (R7, R184). -/
theorem memOK_at_ends {c : Params} (hc : c.wf) {a : Word}
    (h : a.toNat = c.dataLo ∨ a.toNat = c.dataHi - 4) : memOK c a = true := by
  obtain ⟨hbase, -, hnd, -⟩ := hc
  rw [memOK_iff]
  unfold Params.dataHi Params.top Params.dataLo at *
  omega

/-! ## The obligations -/

/-- Settles O21: `memOK_iff` reads the two cases as the check, which decides between the commit of a
result and the fault. -/
theorem lwLoadsTheWordOrFaults : Obligations.LwLoadsTheWordOrFaults := by
  unfold Obligations.LwLoadsTheWordOrFaults
  intro rs rt imm16 s
  have check := memOK_iff s.cfg (s.ea rs imm16)
  refine ⟨rfl, fun h => ?loads, fun h => exec_lw_takesFault rt (mt check.1 h)⟩
  case loads =>
    exact ⟨⟨_, exec_lw_of_memOK rt (check.2 h), commitResult_computesInto s rt _⟩,
      reports_lw rt (check.2 h)⟩

/-- Settles O22: the same check decides between the commit of a store, whose frame is
`commit_storesOnly`, and the fault. -/
theorem swStoresTheWordOrFaults : Obligations.SwStoresTheWordOrFaults := by
  unfold Obligations.SwStoresTheWordOrFaults
  intro rs rt imm16 s
  have check := memOK_iff s.cfg (s.ea rs imm16)
  refine ⟨rfl, fun hwf h => ?stores, fun h => exec_sw_takesFault rt (mt check.1 h)⟩
  case stores =>
    obtain ⟨hstore, hregs⟩ := commit_storesOnly hwf (s.pc + 4) (s.ea rs imm16) (s.reg rt)
    exact ⟨⟨_, exec_sw_of_memOK rt (check.2 h), hstore, rfl, hregs,
        commit_run s _, commit_cfg s _, commit_stopReq s _⟩,
      reports_sw rt (check.2 h)⟩

/-- Settles O30: the check fails just outside the window and passes at its ends. -/
theorem loadsAndStoresFaultJustOutsideTheWindow :
    Obligations.LoadsAndStoresFaultJustOutsideTheWindow := by
  unfold Obligations.LoadsAndStoresFaultJustOutsideTheWindow
  intro rs rt imm16 s hc
  refine ⟨fun h => ?faults, fun h => ?completes⟩
  case faults =>
    have bad := not_memOK_just_outside hc h
    exact ⟨exec_lw_takesFault rt bad, exec_sw_takesFault rt bad⟩
  case completes =>
    have ok := memOK_at_ends hc h
    exact ⟨⟨_, exec_lw_of_memOK rt ok, commit_run s _, rfl⟩,
      ⟨_, exec_sw_of_memOK rt ok, commit_run s _, rfl⟩⟩

end Sys2Proof.Machine
end

section
/-! PROOF. The obligations of spec/45_writeback_and_step.md: one step of the core and its output (R191 to
R201). First the blocks against the meaning of the instruction the record stands for, then what every
step of a running core leads to and reports, said once (`step_report`). -/

namespace Sys2Proof

/-! ## The record and the bytes it is decoded from -/

/-- What the decoder computes beside the raw fields: the immediate is widened by the operation (R85), the
target joined with the pc (R86). -/
def Decoded.Resolved (pc : Word) : Decoded → Prop
  | .r _ _ _ _ _ _ _ => True
  | .i _ _ _ imm16 imm32 op => imm32 = widen op imm16
  | .j _ target26 target _ => target = jumpTarget pc target26

theorem decode_resolved (word pc : Word) : (decode word pc).Resolved pc := by
  cases h : formatOf (opcodeField word) with
  | r => rw [decode_of_format_r h]; trivial
  | i => rw [decode_of_format_i h]; rfl
  | j => rw [decode_of_format_j h]; rfl

/-- Four bytes decode as the word they form, with nothing left over (R51, R80). -/
theorem decodeBytes_eq_ok_iff (pc : Word) (b0 b1 b2 b3 : Byte) (i : Instr) :
    decodeBytes pc [b0, b1, b2, b3] = .ok (i, []) ↔
      decodeInstr (wordOfBytes b0 b1 b2 b3) pc = .ok i := by
  simp only [decodeBytes]
  cases decodeInstr (wordOfBytes b0 b1 b2 b3) pc <;> simp

namespace Machine

/-! ## The blocks and the instruction -/

/-- The register an instruction writes when it completes (R191). -/
def destReg (i : Instr) : Option RegIdx :=
  match i with
  | .addu _ _ rd _ | .subu _ _ rd _ | .and _ _ rd _ | .or _ _ rd _ | .xor _ _ rd _
  | .nor _ _ rd _ | .slt _ _ rd _ | .sll _ _ rd _ | .srl _ _ rd _ => some rd
  | .addiu _ rt _ | .andi _ rt _ | .ori _ rt _ | .lui _ rt _ | .lw _ rt _ => some rt
  | .jal _ => some linkReg
  | .sw _ _ _ | .beq _ _ _ | .bne _ _ _ | .j _ | .jr _ _ _ _ => none

/-- The address an instruction stores to when it completes (R192). -/
def storeAddr (i : Instr) (s : State) : Option Word :=
  match i with
  | .sw rs _ imm16 => some (s.ea rs imm16)
  | _ => none

/-- The commit the blocks form from the answers of Executor and Memory Access Unit (R197). -/
def blockCommit (d : Decoded) (s : State) (r : ExecResult) (m : AccessResult) : Commit :=
  { nextPC := nextPC d s.pc r.value r.taken
    reg := (writebackReg d).map fun dest => (dest, writeData d r m.loaded)
    store := storeOf d m s.regs }

/-- The commit of the blocks writes the register the writeback selects. -/
theorem blockCommit_dests (d : Decoded) (s : State) (r : ExecResult) (m : AccessResult) :
    (blockCommit d s r m).dests = (writebackReg d).toList := by
  simp [Commit.dests, blockCommit, Function.comp_def]

/-- With the record `d`, for which the Executor answers `r`, the blocks do what the instruction `i` does:
they complete it or find its fault. -/
structure BlocksRun (d : Decoded) (i : Instr) (s : State) (r : ExecResult) : Prop where
  executes : execute d s.pc s.regs = some r
  dest_eq : writebackReg d = destReg i
  completes : ∀ m, access d s.cfg s.mem r.value = some m →
    m.changed = storeAddr i s ∧ exec i s = .next (s.commit (blockCommit d s r m))
  faults : access d s.cfg s.mem r.value = none →
    exec i s = .next (s.takeFault (.memoryAccessFault s.pc r.value))

/-- An instruction that touches no memory: the blocks run it if they form its commit. -/
theorem blocksRun_of_no_access {d : Decoded} {i : Instr} {s : State} {r : ExecResult}
    (hexecute : execute d s.pc s.regs = some r) (hdest : writebackReg d = destReg i)
    (haccess : access d s.cfg s.mem r.value = some {}) (hstore : storeAddr i s = none)
    (hexec : exec i s = .next (s.commit (blockCommit d s r {}))) : BlocksRun d i s r where
  executes := hexecute
  dest_eq := hdest
  completes m hm := by
    rw [haccess] at hm
    cases hm
    exact ⟨hstore.symm, hexec⟩
  faults h := by rw [haccess] at h; cases h

/-- A load or store: the blocks run it if the instruction, too, goes by the check of the address. -/
theorem blocksRun_of_checked_access {d : Decoded} {i : Instr} {s : State} {r : ExecResult}
    {m : AccessResult} (hexecute : execute d s.pc s.regs = some r)
    (hdest : writebackReg d = destReg i)
    (haccess : access d s.cfg s.mem r.value = if memOK s.cfg r.value then some m else none)
    (hchanged : m.changed = storeAddr i s)
    (hok : memOK s.cfg r.value = true → exec i s = .next (s.commit (blockCommit d s r m)))
    (hbad : ¬ memOK s.cfg r.value = true →
      exec i s = .next (s.takeFault (.memoryAccessFault s.pc r.value))) :
    BlocksRun d i s r := by
  by_cases ok : memOK s.cfg r.value = true
  · rw [if_pos ok] at haccess
    refine ⟨hexecute, hdest, fun m' hm => ?_, fun h => by simp [haccess] at h⟩
    obtain rfl : m = m' := Option.some.inj (haccess.symm.trans hm)
    exact ⟨hchanged, hok ok⟩
  · rw [if_neg ok] at haccess
    exact ⟨hexecute, hdest, fun m' hm => by simp [haccess] at hm, fun _ => hbad ok⟩

/-- The blocks run the instruction a record stands for, by the record's operation. -/
theorem blocksRun_of_instr {d : Decoded} {i : Instr} {s : State} (hd : d.Resolved s.pc)
    (hi : d.instr = some i) : ∃ r, BlocksRun d i s r := by
  cases d with
  | r opcode rs rt rd shamt funct op =>
    cases op <;> cases hi <;> exact ⟨_, blocksRun_of_no_access rfl rfl rfl rfl rfl⟩
  | i opcode rs rt imm16 imm32 op =>
    cases hd
    cases op with
    | lw =>
      cases hi
      exact ⟨_, blocksRun_of_checked_access rfl rfl rfl rfl (exec_lw_of_memOK rt)
        fun bad => if_neg bad⟩
    | sw =>
      cases hi
      exact ⟨_, blocksRun_of_checked_access rfl rfl rfl rfl (exec_sw_of_memOK rt)
        fun bad => if_neg bad⟩
    | _ => cases hi <;> exact ⟨_, blocksRun_of_no_access rfl rfl rfl rfl rfl⟩
  | j opcode target26 target op =>
    cases hd
    cases op <;> cases hi <;> exact ⟨_, blocksRun_of_no_access rfl rfl rfl rfl rfl⟩

/-- The formatter has a text for every record that stands for an instruction (R210, R211). -/
theorem format_of_instr {d : Decoded} {i : Instr} (hi : d.instr = some i) (pc : Word) :
    ∃ text, format d pc = some text := by
  cases d with
  | r _ _ _ _ _ _ op | i _ _ _ _ _ op | j _ _ _ op =>
    cases op <;> cases hi <;> exact ⟨_, rfl⟩

/-- The Executor has no result for a record that stands for no instruction (R213). -/
theorem execute_of_no_instr {d : Decoded} (hi : d.instr = none) (pc : Word) (x : Regs) :
    execute d pc x = none := by
  cases d with
  | r _ _ _ _ _ _ op | i _ _ _ _ _ op | j _ _ _ op =>
    cases op <;> cases hi <;> rfl

/-- An address the Memory Access Unit reports has passed the check (R56, R180). -/
theorem memOK_of_access {d : Decoded} {c : Params} {mem : Memory} {ea a : Word} {m : AccessResult}
    (h : access d c mem ea = some m) (ha : m.changed = some a) : memOK c a = true := by
  unfold access at h
  split at h
  case h_2 hsw =>
    split_ifs at h with ok
    cases h
    cases ha
    exact ok
  case h_1 hlw =>
    split_ifs at h
    cases h
    cases ha
  all_goals
    cases h
    cases ha

/-- The store of a commit goes to the address the Memory Access Unit reports (R197). -/
theorem changed_of_storeOf {d : Decoded} {m : AccessResult} {x : Regs} {a v : Word}
    (h : storeOf d m x = some (a, v)) : m.changed = some a := by
  unfold storeOf at h
  split at h <;> simp_all

/-! ## The block-level step by cases -/

section BlockStep

variable {s : State} {w : Word}

theorem blockStep_stop (s : State) :
    blockStep true s = (s.haltNormal, .unchanged s.pc none none) :=
  rfl

theorem blockStep_of_fetch_none (hfetch : s.fetch = none) :
    blockStep false s =
      (s.takeFault (.fetchFault s.pc), .unchanged s.pc none (some (.fetchFault s.pc))) := by
  simp [blockStep, hfetch]

theorem blockStep_of_no_instr (hfetch : s.fetch = some w) (hi : (decode w s.pc).instr = none) :
    blockStep false s =
      (s.takeFault (.unsupportedInstruction w s.pc),
        .unchanged s.pc none (some (.unsupportedInstruction w s.pc))) := by
  simp [blockStep, hfetch, execute_of_no_instr hi]

variable {text : String} {r : ExecResult}

theorem blockStep_of_access_none (hfetch : s.fetch = some w)
    (htext : format (decode w s.pc) s.pc = some text)
    (hexecute : execute (decode w s.pc) s.pc s.regs = some r)
    (haccess : access (decode w s.pc) s.cfg s.mem r.value = none) :
    blockStep false s =
      (s.takeFault (.memoryAccessFault s.pc r.value),
        .unchanged s.pc (some text) (some (.memoryAccessFault s.pc r.value))) := by
  simp [blockStep, hfetch, htext, hexecute, haccess]

theorem blockStep_of_access_some {m : AccessResult} (hfetch : s.fetch = some w)
    (htext : format (decode w s.pc) s.pc = some text)
    (hexecute : execute (decode w s.pc) s.pc s.regs = some r)
    (haccess : access (decode w s.pc) s.cfg s.mem r.value = some m) :
    blockStep false s =
      (s.commit (blockCommit (decode w s.pc) s r m),
        { text := some text, newPC := nextPC (decode w s.pc) s.pc r.value r.taken,
          changedReg := writebackReg (decode w s.pc), changedMem := m.changed, fault := none }) := by
  simp [blockStep, blockCommit, hfetch, htext, hexecute, haccess]

end BlockStep

/-! ## What a step leads to and reports -/

/-- What a step of a running core leads to and what it puts out (R198): it stops, takes a fault, or
completes an instruction. -/
inductive StepReport (s : State) : State → Output → Prop
  | stopped : StepReport s s.sampled.haltNormal (.unchanged s.pc none none)
  | faulted {f : Fault} {text : Option String}
      (text_iff : text.isSome = true ↔ ∃ p ea, f = .memoryAccessFault p ea) :
      StepReport s (s.sampled.takeFault f) (.unchanged s.pc text (some f))
  | completed {w : Word} {i : Instr} {c : Commit} {text : String}
      (unstopped : s.stopAsserted = false) (fetched : s.fetch = some w)
      (decoded : decodeInstr w s.pc = .ok i) (dests_eq : c.dests = (destReg i).toList)
      (stores : ∀ a v, c.store = some (a, v) → storeAddr i s = some a)
      (checked : ∀ a, storeAddr i s = some a → memOK s.cfg a = true) :
      StepReport s (s.sampled.commit c)
        { text := some text, newPC := c.nextPC, changedReg := destReg i,
          changedMem := storeAddr i s, fault := none }

/-- The blocks run a decoded instruction to the state `exec` answers, and report it. -/
theorem blockStep_report {s : State} {w : Word} {i : Instr} (hstop : s.stopAsserted = false)
    (hfetch : s.fetch = some w) (hdec : decodeInstr w s.pc = .ok i) :
    ∃ t o, exec i s.sampled = .next t ∧ blockStep false s.sampled = (t, o) ∧ StepReport s t o := by
  have hi : (decode w s.sampled.pc).instr = some i := (decodeInstr_eq_ok_iff w s.pc i).1 hdec
  obtain ⟨text, htext⟩ := format_of_instr hi s.sampled.pc
  obtain ⟨r, hexecute, hdest, hcompletes, hfaults⟩ := blocksRun_of_instr (decode_resolved ..) hi
  cases haccess : access (decode w s.sampled.pc) s.sampled.cfg s.sampled.mem r.value with
  | none =>
    exact ⟨_, _, hfaults haccess, blockStep_of_access_none hfetch htext hexecute haccess,
      .faulted (by simp)⟩
  | some m =>
    obtain ⟨hchanged, hexec⟩ := hcompletes m haccess
    refine ⟨_, _, hexec, blockStep_of_access_some hfetch htext hexecute haccess, ?_⟩
    rw [hdest, hchanged]
    refine .completed hstop hfetch hdec ?dests (fun a v h => ?stores) (fun a h => ?checked)
    case dests => rw [← hdest, blockCommit_dests]
    case stores => exact hchanged.symm.trans (changed_of_storeOf h)
    case checked => exact memOK_of_access haccess (hchanged.trans h)

/-- Every step of a running core ends, by its instruction and by the blocks alike, in one state with one
report (R201). -/
theorem step_report {s : State} (hrun : s.run = .running) :
    ∃ t o, step s = .next t ∧ blockStep s.stopAsserted s.sampled = (t, o) ∧ StepReport s t o := by
  obtain ⟨hstop, hstep⟩ | ⟨hstop, hfetch, hstep⟩ | ⟨w, hstop, hfetch, hdec, hstep⟩ |
    ⟨w, i, hstop, hfetch, hdec, hstep⟩ := step_running hrun <;> rw [hstep, hstop]
  · exact ⟨_, _, rfl, blockStep_stop _, .stopped⟩
  · exact ⟨_, _, rfl, blockStep_of_fetch_none hfetch, .faulted (by simp)⟩
  · have hi := ((decodeInstr_eq_error_iff _ _ _).1 hdec).1
    exact ⟨_, _, rfl, blockStep_of_no_instr hfetch hi, .faulted (by simp)⟩
  · exact blockStep_report hstop hfetch hdec

/-- The report of the step a running core takes is its output. -/
theorem stepOutput_report {s t : State} (hrun : s.run = .running) (hstep : step s = .next t) :
    ∃ o, stepOutput s = some o ∧ StepReport s t o := by
  obtain ⟨t', o, hstep', hblock, report⟩ := step_report hrun
  cases hstep.symm.trans hstep'
  exact ⟨o, by simp [stepOutput, hrun, hblock], report⟩

/-- A commit keeps every byte of a canonical memory outside the word it stores. -/
theorem read_commit_outside {s : State} (hwf : s.mem.wf) {c : Commit} {b : Nat}
    (h : ∀ a v, c.store = some (a, v) → ¬ (a.toNat ≤ b ∧ b < a.toNat + 4)) :
    (s.commit c).mem.read b = s.mem.read b := by
  cases hs : c.store with
  | none => rw [commit_mem_of_no_store _ _ hs]
  | some store =>
    obtain ⟨a, v⟩ := store
    rw [commit_mem_of_store _ _ _ _ hs, Memory.read_writeWord hwf, if_neg (h a v hs)]

namespace StepReport

variable {s t : State} {o : Output}

/-- No register changes but the reported one. -/
theorem reg_eq {r : RegIdx} (report : StepReport s t o) (hr : o.changedReg ≠ some r) :
    t.reg r = s.reg r := by
  cases report with
  | stopped | faulted => rfl
  | completed _ _ _ dests_eq =>
    exact commit_reg_of_not_mem_dests s.sampled (by simpa [dests_eq] using hr)

/-- No byte of a canonical memory changes but those of the word at the reported address. -/
theorem read_eq {b : Nat} (report : StepReport s t o) (hwf : s.mem.wf)
    (hb : ∀ a, o.changedMem = some a → ¬ (a.toNat ≤ b ∧ b < a.toNat + 4)) :
    t.mem.read b = s.mem.read b := by
  cases report with
  | stopped | faulted => rfl
  | completed _ _ _ _ stores =>
    exact read_commit_outside (s := s.sampled) hwf fun a v hs => hb a (stores a v hs)

/-- A reported address has passed the check. -/
theorem memOK_of_changedMem {a : Word} (report : StepReport s t o) (ha : o.changedMem = some a) :
    memOK s.cfg a = true := by
  cases report with
  | stopped | faulted => cases ha
  | completed _ _ _ _ _ checked => exact checked a ha

/-- Where the fetched word decodes to `i`, only what `i` writes is reported. -/
theorem changed_of_decoded {w : Word} {i : Instr} (report : StepReport s t o)
    (hfetch : s.fetch = some w) (hdec : decodeInstr w s.pc = .ok i) :
    (∀ r, o.changedReg = some r → destReg i = some r) ∧
      (∀ a, o.changedMem = some a → storeAddr i s = some a) := by
  cases report with
  | stopped | faulted => exact ⟨nofun, nofun⟩
  | completed _ fetched decoded =>
    cases hfetch.symm.trans fetched
    cases hdec.symm.trans decoded
    exact ⟨fun _ => id, fun _ => id⟩

/-- A step that runs no instruction reports no change. -/
theorem changed_of_no_instr (report : StepReport s t o)
    (h : ¬ ∃ w i, s.stopAsserted = false ∧ s.fetch = some w ∧ decodeInstr w s.pc = .ok i) :
    o.changedReg = none ∧ o.changedMem = none := by
  cases report with
  | stopped | faulted => exact ⟨rfl, rfl⟩
  | completed unstopped fetched decoded => exact absurd ⟨_, _, unstopped, fetched, decoded⟩ h

end StepReport

/-- Only an `sw` stores, at its effective address (R192). -/
theorem storeAddr_eq_some {i : Instr} {s : State} {a : Word} (h : storeAddr i s = some a) :
    ∃ rs rt imm16, i = .sw rs rt imm16 ∧ a = s.ea rs imm16 := by
  cases i with
  | sw rs rt imm16 => exact ⟨rs, rt, imm16, rfl, (Option.some.inj h).symm⟩
  | _ => cases h

/-! ## The obligations -/

/-- Settles O53: a running core by `step_report`; both forms keep a halted state. -/
theorem blocksComposeToTheStep : Obligations.BlocksComposeToTheStep := by
  unfold Obligations.BlocksComposeToTheStep
  intro s
  cases hrun : s.run with
  | running =>
    obtain ⟨t, o, hstep, hblock, -⟩ := step_report hrun
    simp only [hstep, blockCycle, hrun, hblock]
  | haltedNormal | haltedFault =>
    rw [step_halted (by simp [hrun])]
    simp only [blockCycle, hrun]

/-- Settles O54: what changes is what the report names (`reg_eq`, `read_eq`), in every case of it. -/
theorem outputReportsWhatTheStepDid : Obligations.OutputReportsWhatTheStepDid := by
  unfold Obligations.OutputReportsWhatTheStepDid
  intro s t hrun hwf hstep
  obtain ⟨o, ho, report⟩ := stepOutput_report hrun hstep
  refine ⟨o, ho, ?pc, ?fault, fun r => report.reg_eq, fun hnone b => ?noAddress,
    fun a ha => ⟨report.memOK_of_changedMem ha, fun b hb => ?address⟩, ?halted⟩
  case pc => cases report <;> rfl
  case fault => cases report <;> simp [Output.unchanged, hrun]
  case noAddress => exact report.read_eq hwf fun a ha => by cases hnone.symm.trans ha
  case address => exact report.read_eq hwf fun a' ha' => by cases ha.symm.trans ha'; exact hb
  case halted =>
    cases report with
    | stopped | faulted => exact fun _ => ⟨rfl, rfl, rfl⟩
    | completed => exact fun h => absurd ((commit_run s.sampled _).trans hrun) h

/-- Settles O55: the completed step reports `destReg` and `storeAddr`, which are the tables of R191 and
R192. -/
theorem reportedChangesFollowTheWriteEnable : Obligations.ReportedChangesFollowTheWriteEnable := by
  unfold Obligations.ReportedChangesFollowTheWriteEnable
  intro s t hrun hstep
  obtain ⟨o, ho, report⟩ := stepOutput_report hrun hstep
  refine ⟨o, ho, ?_⟩
  cases report with
  | stopped => exact ⟨fun _ => ⟨rfl, rfl⟩, nofun⟩
  | faulted => exact ⟨fun _ => ⟨rfl, rfl⟩, nofun⟩
  | @completed w i c text _ hfetch hdec =>
    refine ⟨fun h => absurd ((commit_run s.sampled _).trans hrun) h,
      fun _ => ⟨w, i, hfetch, hdec, ?_, ?_⟩⟩
    all_goals cases i <;> rfl

/-- Settles O56, by the cases of the report. -/
theorem textIsPutOutOncePastTheFormatter : Obligations.TextIsPutOutOncePastTheFormatter := by
  unfold Obligations.TextIsPutOutOncePastTheFormatter
  intro s t hrun hstep
  obtain ⟨o, ho, report⟩ := stepOutput_report hrun hstep
  refine ⟨o, ho, ?_⟩
  cases report with
  | stopped => simp [Output.unchanged]
  | faulted htext => simp [Output.unchanged, htext]
  | completed => simp [hrun]

/-- Settles O43: a running core changes what its report names, which is at most what its instruction
writes; a halted core keeps its state. -/
theorem atMostOneRegisterOrOneWordChanges : Obligations.AtMostOneRegisterOrOneWordChanges := by
  unfold Obligations.AtMostOneRegisterOrOneWordChanges
  intro s t hwf hstep
  by_cases hrun : s.run = .running
  case neg =>
    cases (step_halted hrun).symm.trans hstep
    exact ⟨fun _ _ h => absurd h hrun, fun _ => ⟨fun _ => rfl, fun _ => rfl⟩⟩
  obtain ⟨o, -, report⟩ := stepOutput_report hrun hstep
  refine ⟨fun w i _ _ hfetch hdec => ?_, fun hno => ?noInstr⟩
  case noInstr =>
    obtain ⟨hreg, hmem⟩ := report.changed_of_no_instr fun ⟨w, i, h⟩ => hno ⟨w, i, hrun, h⟩
    exact ⟨fun r => report.reg_eq (by simp [hreg]), fun b => report.read_eq hwf (by simp [hmem])⟩
  obtain ⟨hreg, hmem⟩ := report.changed_of_decoded hfetch hdec
  have regs (r : RegIdx) (h : destReg i ≠ some r) : t.reg r = s.reg r :=
    report.reg_eq (mt (hreg r) h)
  refine ⟨fun r hr => regs r ?_, ?store, fun hnone b => report.read_eq hwf fun a ha => ?noStore⟩
  · cases i <;> exact hr
  case store =>
    rintro rs rt imm16 rfl ok
    refine ⟨fun r => regs r nofun, ((memOK_iff _ _).1 ok).1, fun b hb => ?_⟩
    exact report.read_eq hwf fun a ha => by cases hmem a ha; exact hb
  case noStore =>
    obtain ⟨rs, rt, imm16, rfl, rfl⟩ := storeAddr_eq_some (hmem a ha)
    exact absurd (report.memOK_of_changedMem ha) (by simp [hnone rs rt imm16 rfl])

/-- Settles O32: the four bytes are the fetched word. -/
theorem stepRunsTheDecodedInstruction : Obligations.StepRunsTheDecodedInstruction := by
  unfold Obligations.StepRunsTheDecodedInstruction
  intro s i hrun hstop hok hbytes
  have hfetch : s.fetch = some (s.memWord s.pc) := (fetch_eq_some_iff s _).2 ⟨hok, rfl⟩
  exact step_eq_exec hrun hstop hfetch ((decodeBytes_eq_ok_iff ..).1 hbytes)

end Machine

end Sys2Proof
end

section
/-! PROOF. The obligations of spec/60_exceptions.md: the faults of a step (R220 to R227). First that
decoding and encoding invert each other, so that the word of no instruction is one that does not decode;
then the causes that halt a running core, each with the run state it leaves. -/

namespace Sys2Proof

/-! ## Words and instructions -/

/-- The selector fields of a record are those of its operation (R81 to R83, R90, R91). -/
def Decoded.Selected : Decoded → Prop
  | .r opcode _ _ _ _ funct op => opcode = 0 ∧ funct = codeOf op
  | .i opcode _ _ _ _ op => opcode = codeOf op
  | .j opcode _ _ op => opcode = codeOf op

/-- No instruction stands behind the tag `unsupported` (R116). -/
theorem Decoded.op_ne_unsupported {d : Decoded} {i : Instr} (h : d.instr = some i) :
    d.op ≠ .unsupported := by
  cases d with
  | r _ _ _ _ _ _ op | i _ _ _ _ _ op | j _ _ _ op =>
    rintro rfl
    cases h

/-- The decoder reads the operation off the selector fields, by the same table (R118). -/
theorem decode_selected {word pc : Word} (hop : (decode word pc).op ≠ .unsupported) :
    (decode word pc).Selected := by
  cases h : formatOf (opcodeField word) with
  | r =>
    rw [decode_of_format_r h] at hop ⊢
    exact ⟨(formatOf_eq_r_iff _).1 h, (codeOf_lookupOp rfl hop).symm⟩
  | i =>
    rw [decode_of_format_i h] at hop ⊢
    exact (codeOf_lookupOp rfl hop).symm
  | j =>
    rw [decode_of_format_j h] at hop ⊢
    exact (codeOf_lookupOp rfl hop).symm

/-- The word of the instruction a record stands for is assembled from the record's raw fields (R120). -/
theorem encode_of_instr {d : Decoded} {i : Instr} (hd : d.Selected) (hi : d.instr = some i) :
    encode i = d.word := by
  cases d with
  | r opcode rs rt rd shamt funct op =>
    obtain ⟨rfl, rfl⟩ := hd
    cases op <;> cases hi <;> rfl
  | i opcode rs rt imm16 imm32 op | j opcode target26 target op =>
    cases hd
    cases op <;> cases hi <;> rfl

/-- A word that decodes to an instruction is the word of that instruction. -/
theorem encode_of_decodeInstr {word pc : Word} {i : Instr} (h : decodeInstr word pc = .ok i) :
    encode i = word := by
  have hi := (decodeInstr_eq_ok_iff word pc i).1 h
  exact (encode_of_instr (decode_selected (Decoded.op_ne_unsupported hi)) hi).trans
    (decode_word word pc)

/-- The word of an instruction decodes to that instruction. -/
theorem decodeInstr_encode (i : Instr) (pc : Word) : decodeInstr (encode i) pc = .ok i := by
  rw [decodeInstr_eq_ok_iff]
  cases i with
  | j | jal => rw [encode, decode_assembleJ (by decide)]; rfl
  | beq | bne | addiu | andi | ori | lui | lw | sw =>
    rw [encode, decode_assembleI (by decide)]; rfl
  | _ => rw [encode, decode_assembleR (by decide)]; rfl

namespace Machine

/-! ## How a step halts a running core -/

/-- A running core whose stop request is asserted halts normally (R195). -/
theorem step_of_stopAsserted {s : State} (hrun : s.run = .running) (hstop : s.stopAsserted = true) :
    step s = .next s.sampled.haltNormal := by
  obtain ⟨-, e⟩ | ⟨h, -⟩ | ⟨_, h, -⟩ | ⟨_, _, h, -⟩ := step_running hrun <;> simp_all

/-- A running core whose stop request is not asserted takes UnsupportedInstruction where the fetched word
decodes to no instruction (R221). -/
theorem step_of_not_decoded {s : State} {w : Word} (hrun : s.run = .running)
    (hstop : s.stopAsserted = false) (hfetch : s.fetch = some w)
    (hdec : ∀ i, decodeInstr w s.pc ≠ .ok i) :
    step s = .next (s.sampled.takeFault (.unsupportedInstruction w s.pc)) := by
  obtain ⟨h, -⟩ | ⟨-, h, -⟩ | ⟨_, -, h, -, e⟩ | ⟨_, _, -, h, h', -⟩ := step_running hrun <;>
    simp_all

/-- A load or store whose effective address fails the check takes the fault (R222). -/
theorem exec_of_not_memOK {i : Instr} {s : State} {rs rt : RegIdx} {imm16 : BitVec 16}
    (hi : i = .lw rs rt imm16 ∨ i = .sw rs rt imm16) (hbad : memOK s.cfg (s.ea rs imm16) = false) :
    exec i s = .next (s.takeFault (.memoryAccessFault s.pc (s.ea rs imm16))) := by
  obtain rfl | rfl := hi <;> exact if_neg (by simp [hbad])

/-- The causes that halt a running core, each with the run state it leaves (R226): the conditions of a
cause exclude those before it. -/
inductive HaltsWith (s : State) : RunState → Prop
  | stop (stopped : s.stopAsserted = true) : HaltsWith s .haltedNormal
  | fetch (unstopped : s.stopAsserted = false) (unfetched : s.fetch = none) :
      HaltsWith s (.haltedFault (.fetchFault s.pc))
  | unsupported {w : Word} (unstopped : s.stopAsserted = false) (fetched : s.fetch = some w)
      (undecoded : ∀ i, decodeInstr w s.pc ≠ .ok i) :
      HaltsWith s (.haltedFault (.unsupportedInstruction w s.pc))
  | access {w : Word} {i : Instr} {rs rt : RegIdx} {imm16 : BitVec 16}
      (unstopped : s.stopAsserted = false) (fetched : s.fetch = some w)
      (decoded : decodeInstr w s.pc = .ok i)
      (accesses : i = .lw rs rt imm16 ∨ i = .sw rs rt imm16)
      (bad : memOK s.cfg (s.ea rs imm16) = false) :
      HaltsWith s (.haltedFault (.memoryAccessFault s.pc (s.ea rs imm16)))

section Halts

variable {s t : State} {r : RunState} (hrun : s.run = .running) (hstep : step s = .next t)

include hrun hstep

/-- A step that does not leave the core running has one of the causes, by the order of `step_running` and
then the shapes of `exec_cases`. -/
theorem haltsWith_of_step (hr : t.run ≠ .running) : HaltsWith s t.run := by
  obtain ⟨hstop, e⟩ | ⟨hstop, hfetch, e⟩ | ⟨w, hstop, hfetch, hdec, e⟩ |
    ⟨w, i, hstop, hfetch, hdec, e⟩ := step_running hrun
  · cases hstep.symm.trans e
    exact .stop hstop
  · cases hstep.symm.trans e
    exact .fetch hstop hfetch
  · cases hstep.symm.trans e
    exact .unsupported hstop hfetch (by simp [hdec])
  · obtain ⟨_, e'⟩ | ⟨_, _, _, e'⟩ | ⟨_, _, _, -, -, e'⟩ | ⟨rs, rt, imm16, hi, hbad, e'⟩ :=
      exec_cases i s.sampled <;> cases hstep.symm.trans (e.trans e')
    on_goal 4 => exact .access hstop hfetch hdec hi hbad
    all_goals exact absurd ((commit_run s.sampled _).trans hrun) hr

/-- Each cause halts the core in its own run state. -/
theorem HaltsWith.run_eq (h : HaltsWith s r) : t.run = r := by
  cases h with
  | stop hstop => cases hstep.symm.trans (step_of_stopAsserted hrun hstop); rfl
  | fetch hstop hfetch => cases hstep.symm.trans (step_of_fetch_none hrun hstop hfetch); rfl
  | unsupported hstop hfetch hdec =>
    cases hstep.symm.trans (step_of_not_decoded hrun hstop hfetch hdec); rfl
  | access hstop hfetch hdec hi hbad =>
    have e := (step_eq_exec hrun hstop hfetch hdec).trans (exec_of_not_memOK hi hbad)
    cases hstep.symm.trans e; rfl

/-- The core halts in a run state exactly by its cause. -/
theorem run_eq_iff_haltsWith (hr : r ≠ .running) : t.run = r ↔ HaltsWith s r where
  mp h := h ▸ haltsWith_of_step hrun hstep (h ▸ hr)
  mpr := HaltsWith.run_eq hrun hstep

end Halts

/-! ## The obligations -/

/-- Settles O36: a word of no instruction does not decode (`encode_of_decodeInstr`); one of an instruction
does (`decodeInstr_encode`), which excludes the cause of the fault. -/
theorem unsupportedWordTakesItsFault : Obligations.UnsupportedWordTakesItsFault := by
  unfold Obligations.UnsupportedWordTakesItsFault
  intro s w hrun hstop hfetch
  refine ⟨fun hno => ?faults, ?decodes⟩
  case faults =>
    have hdec i : decodeInstr w s.pc ≠ .ok i := fun h => hno i (encode_of_decodeInstr h)
    exact ⟨_, step_of_not_decoded hrun hstop hfetch hdec, takeFault_takesFault s.sampled _⟩
  case decodes =>
    rintro ⟨i, rfl⟩
    obtain ⟨t, -, hstep, -⟩ := step_report hrun
    refine ⟨t, hstep, fun w' p h => ?_⟩
    cases h ▸ haltsWith_of_step hrun hstep (by simp [h]) with
    | unsupported _ hfetch' hdec =>
      cases hfetch.symm.trans hfetch'
      exact hdec i (decodeInstr_encode i s.pc)

/-- Settles O37: a halted run state has exactly its cause (`run_eq_iff_haltsWith`), and the conditions are
those of the cause. -/
theorem faultConditionsFollowThePriorityOrder :
    Obligations.FaultConditionsFollowThePriorityOrder := by
  unfold Obligations.FaultConditionsFollowThePriorityOrder
  intro s t hrun hstep
  refine ⟨?stop, fun p => ?fetch, fun w p => ?unsupported, fun p ea => ?access⟩ <;>
    refine (run_eq_iff_haltsWith hrun hstep (by simp)).trans ?_
  case stop => exact ⟨fun | .stop h => h, .stop⟩
  case fetch =>
    rw [← fetch_eq_none_iff]
    exact ⟨fun | .fetch hstop hfetch => ⟨hstop, hfetch, rfl⟩,
      fun ⟨hstop, hfetch, hp⟩ => hp ▸ .fetch hstop hfetch⟩
  case unsupported =>
    exact ⟨fun | .unsupported hstop hfetch hdec => ⟨hstop, hfetch, rfl, hdec⟩,
      fun ⟨hstop, hfetch, hp, hdec⟩ => hp ▸ .unsupported hstop hfetch hdec⟩
  case access =>
    constructor
    · rintro (_ | _ | _ | @⟨w, i, rs, rt, imm16, hstop, hfetch, hdec, rfl | rfl, hbad⟩)
      · exact ⟨hstop, rfl, hbad, w, rs, rt, imm16, hfetch, rfl, .inl hdec⟩
      · exact ⟨hstop, rfl, hbad, w, rs, rt, imm16, hfetch, rfl, .inr hdec⟩
    · rintro ⟨hstop, rfl, hbad, w, rs, rt, imm16, hfetch, rfl, hdec | hdec⟩
      · exact .access hstop hfetch hdec (.inl rfl) hbad
      · exact .access hstop hfetch hdec (.inr rfl) hbad

/-- Settles O38, by the cases of the report: only a fault leaves a fault in the run state. -/
theorem faultChangesOnlyTheRunState : Obligations.FaultChangesOnlyTheRunState := by
  unfold Obligations.FaultChangesOnlyTheRunState
  intro s t f hrun hstep hfault
  obtain ⟨o, ho, report⟩ := stepOutput_report hrun hstep
  cases report with
  | stopped => cases hfault
  | faulted =>
    cases hfault
    exact ⟨rfl, _, ho, rfl, rfl, rfl, rfl⟩
  | completed => cases ((commit_run s.sampled _).trans hrun).symm.trans hfault

end Machine

end Sys2Proof
end

section
/-! PROOF. The obligations of spec/30_encoding.md and spec/40_decoder.md on instructions and their words:
decoding and encoding invert each other (R120), and the supported words are those of the opcode table
under its masks (R92, R93). -/

namespace Sys2Proof

/-- Settles O4: by format, the record of an assembled word has the fields it was assembled from
(`decodeInstr_encode`). -/
theorem decodingInvertsEncoding : Obligations.DecodingInvertsEncoding := by
  unfold Obligations.DecodingInvertsEncoding
  exact decodeInstr_encode

/-- Settles O5: the record keeps every bit of the word (`encode_of_decodeInstr`). -/
theorem encodingInvertsDecoding : Obligations.EncodingInvertsDecoding := by
  unfold Obligations.EncodingInvertsDecoding
  exact fun _ _ _ => encode_of_decodeInstr

/-- Settles O1: each word is that of its instruction, with the fields of spec/95_test_vectors.md; the
decoder evaluates to the rejection of the other two. -/
theorem sampleWordsDecodeAsTheSpecEncodesThem :
    Obligations.SampleWordsDecodeAsTheSpecEncodesThem := by
  unfold Obligations.SampleWordsDecodeAsTheSpecEncodesThem
  exact ⟨decodeInstr_encode (.addu 1 2 3 0) 0, decodeInstr_encode (.srl 0 4 5 28) 0,
    decodeInstr_encode (.addiu 9 9 0xFFFF) 0, decodeInstr_encode (.lui 0 8 0x0040) 0,
    decodeInstr_encode (.bne 9 0 0xFFFA) 0, decodeInstr_encode (.jal 0x0100004) 0,
    decodeInstr_encode (.jr 31 0 0 0) 0, decodeInstr_encode (.lw 29 3 0xFFFC) 0,
    decodeInstr_encode (.sw 29 2 0xFFFC) 0, rfl, rfl⟩

/-! ## The masks -/

/-- The mask of an R-format row keeps opcode and funct. -/
theorem and_functMask (word : Word) :
    word &&& 0xFC00003F = assembleR (opcodeField word) 0 0 0 0 (word.extractLsb' 0 6) := by
  have mask : (0xFC00003F : Word) =
      assembleR (BitVec.allOnes 6) 0 0 0 0 (BitVec.allOnes 6) := by decide
  conv_lhs => rw [mask, ← assembleR_fields word]
  change (_ : BitVec (6 + 5 + 5 + 5 + 5 + 6)) &&& _ = _
  simp only [assembleR, BitVec.and_append, BitVec.and_allOnes, BitVec.and_zero,
    BitVec.ofNat_eq_ofNat]

/-- The mask of an I- or J-format row keeps the opcode. -/
theorem and_opcodeMask (word : Word) :
    word &&& 0xFC000000 = assembleJ (opcodeField word) 0 := by
  have mask : (0xFC000000 : Word) = assembleJ (BitVec.allOnes 6) 0 := by decide
  conv_lhs => rw [mask, ← assembleJ_fields word]
  change (_ : BitVec (6 + 26)) &&& _ = _
  simp only [assembleJ, BitVec.and_append, BitVec.and_allOnes, BitVec.and_zero,
    BitVec.ofNat_eq_ofNat]

/-- The functs of the R-format rows of the selector table (R90). -/
def functCodes : List (BitVec 6) :=
  (selectorTable.filter (·.format = .r)).map (·.code)

/-- The opcodes of the other rows of the selector table (R91). -/
def opcodeCodes : List (BitVec 6) :=
  (selectorTable.filter (·.format ≠ .r)).map (·.code)

/-- A word matches an R-format row when its opcode is 0 and its funct is in the table. -/
theorem and_functMask_mem_iff (word : Word) :
    word &&& 0xFC00003F ∈ functCodes.map (assembleR 0 0 0 0 0) ↔
      opcodeField word = 0 ∧ word.extractLsb' 0 6 ∈ functCodes := by
  rw [and_functMask, List.mem_map]
  constructor
  · rintro ⟨code, hcode, e⟩
    have hopcode := congrArg opcodeField e
    have hfunct := congrArg (BitVec.extractLsb' 0 6) e
    rw [opcodeField_assembleR, opcodeField_assembleR] at hopcode
    rw [funct_assembleR, funct_assembleR] at hfunct
    exact ⟨hopcode.symm, hfunct ▸ hcode⟩
  · rintro ⟨hopcode, hfunct⟩
    exact ⟨_, hfunct, by rw [hopcode]⟩

/-- A word matches an I- or J-format row when its opcode is in the table. -/
theorem and_opcodeMask_mem_iff (word : Word) :
    word &&& 0xFC000000 ∈ opcodeCodes.map (assembleJ · 0) ↔ opcodeField word ∈ opcodeCodes := by
  rw [and_opcodeMask, List.mem_map]
  constructor
  · rintro ⟨code, hcode, e⟩
    have hopcode := congrArg opcodeField e
    rw [opcodeField_assembleJ, opcodeField_assembleJ] at hopcode
    exact hopcode ▸ hcode
  · exact fun hopcode => ⟨_, hopcode, rfl⟩

/-! ## The supported words -/

/-- The word of an instruction has its code from the table, in the funct under opcode 0 or in the
opcode. -/
theorem encode_selects (i : Instr) :
    (opcodeField (encode i) = 0 ∧ (encode i).extractLsb' 0 6 ∈ functCodes) ∨
      opcodeField (encode i) ∈ opcodeCodes := by
  cases i with
  | j | jal => right; rw [encode, opcodeField_assembleJ]; decide
  | beq | bne | addiu | andi | ori | lui | lw | sw =>
    right; rw [encode, opcodeField_assembleI]; decide
  | _ => left; rw [encode, opcodeField_assembleR, funct_assembleR]; decide

/-- A record with the format and the operation of a table row stands for an instruction. -/
theorem exists_instr_of_row {row : SelectorRow} (hrow : row ∈ selectorTable) {d : Decoded}
    (hformat : d.format = row.format) (hop : d.op = row.op) : ∃ i, d.instr = some i := by
  simp only [selectorTable, List.cons_append, List.nil_append, List.mem_cons, List.not_mem_nil,
    or_false] at hrow
  cases d with
  | r _ _ _ _ _ _ op | i _ _ _ _ _ op | j _ _ _ op =>
    obtain rfl | rfl | rfl | rfl | rfl | rfl | rfl | rfl | rfl | rfl | rfl | rfl | rfl | rfl | rfl |
      rfl | rfl | rfl | rfl | rfl := hrow <;> cases hformat <;> cases hop <;> exact ⟨_, rfl⟩

/-- The operation of a record that is not of R-format is the one its opcode selects. -/
theorem decode_op_of_format_ne_r {word : Word} (h : formatOf (opcodeField word) ≠ .r) (pc : Word) :
    (decode word pc).op = lookupOp (formatOf (opcodeField word)) (opcodeField word) := by
  cases hformat : formatOf (opcodeField word) with
  | r => exact absurd hformat h
  | i => rw [decode_of_format_i hformat]; rfl
  | j => rw [decode_of_format_j hformat]; rfl

/-- The words that decode to an instruction, by their selector fields: a row of the table gives the
record its format and operation. -/
theorem exists_decodeInstr_iff (word pc : Word) :
    (∃ i, decodeInstr word pc = .ok i) ↔
      (opcodeField word = 0 ∧ word.extractLsb' 0 6 ∈ functCodes) ∨
        opcodeField word ∈ opcodeCodes := by
  have lookup : ∀ row ∈ selectorTable, lookupOp row.format row.code = row.op := by decide
  have formats : ∀ row ∈ selectorTable, row.format ≠ .r → formatOf row.code = row.format := by
    decide
  constructor
  · rintro ⟨i, hi⟩
    exact encode_of_decodeInstr hi ▸ encode_selects i
  simp only [decodeInstr_eq_ok_iff, functCodes, opcodeCodes, List.mem_map, List.mem_filter,
    decide_eq_true_eq]
  rintro (⟨hopcode, row, ⟨hrow, hr⟩, hcode⟩ | ⟨row, ⟨hrow, hr⟩, hcode⟩)
  · have hformat : formatOf (opcodeField word) = .r := (formatOf_eq_r_iff _).2 hopcode
    refine exists_instr_of_row hrow ((decode_format word pc).trans (hformat.trans hr.symm)) ?_
    rw [decode_of_format_r hformat, ← lookup row hrow, hcode, hr]
    rfl
  · have hformat : formatOf (opcodeField word) = row.format := hcode ▸ formats row hrow hr
    refine exists_instr_of_row hrow ((decode_format word pc).trans hformat) ?_
    rw [decode_op_of_format_ne_r (hformat ▸ hr), hformat, ← hcode, lookup row hrow]

/-- Settles O7: the masks keep the selector fields, and these are in the table exactly where the word
decodes (`exists_decodeInstr_iff`). -/
theorem supportedWordsAreExactlyTheTableRows :
    Obligations.SupportedWordsAreExactlyTheTableRows := by
  unfold Obligations.SupportedWordsAreExactlyTheTableRows
  intro word pc
  refine ⟨?rows, ?rejected⟩
  case rows =>
    rw [exists_decodeInstr_iff, ← and_functMask_mem_iff, ← and_opcodeMask_mem_iff]
    rfl
  case rejected =>
    simp only [decodeInstr_eq_ok_iff, decodeInstr_eq_error_iff, and_true,
      ← Option.ne_none_iff_exists', ne_eq, not_not]

end Sys2Proof
end

section
/-! PROOF. The obligations on what instructions compute that no one family states: ignored fields (R92),
register 0 (R21), the two readings of a sum (R140); then a store and the read that follows it (R60,
R62). -/

namespace Sys2Proof.Machine

/-! ## Registers -/

/-- Settles O10: no arm of `exec` passes on a field it ignores, so the two meanings are the same term. -/
theorem ignoredFieldsDoNotChangeTheResult : Obligations.IgnoredFieldsDoNotChangeTheResult := by
  unfold Obligations.IgnoredFieldsDoNotChangeTheResult
  intros
  exact ⟨rfl, rfl, rfl, rfl, rfl, rfl, rfl, rfl, rfl, rfl, rfl⟩

@[simp] theorem commitResult_reg_same (s : State) (d : RegIdx) (v : Word) :
    (s.commitResult d v).reg d = v :=
  (commitResult_reg s d d v).trans (if_pos rfl)

/-- Settles O23: both commit a sum to their destination, register 0 being one like any other. -/
theorem registerZeroKeepsWhatIsWritten : Obligations.RegisterZeroKeepsWhatIsWritten := by
  unfold Obligations.RegisterZeroKeepsWhatIsWritten
  intro rs rt rd shamt shamt' s
  exact ⟨_, _, rfl, commitResult_reg_same s 0 _, rfl, commitResult_reg_same _ rd _⟩

/-- The wrapped sum under both readings (R140). -/
theorem aluAdd_readings (a b : Word) :
    ((aluAdd a b).toNat : Int) = ((a.toNat : Int) + b.toNat) % 2 ^ 32 ∧
      (aluAdd a b).toInt = (a.toInt + b.toInt).bmod (2 ^ 32) := by
  refine ⟨?unsigned, BitVec.toInt_add a b⟩
  rw [aluAdd_toNat]
  omega

/-- Widening by the sign keeps the signed reading of the immediate (R151). -/
theorem aluAdd_sext32_readings (a : Word) (v : BitVec 16) :
    ((aluAdd a (sext32 v)).toNat : Int) = ((a.toNat : Int) + (v.signExtend 32).toNat) % 2 ^ 32 ∧
      (aluAdd a (sext32 v)).toInt = (a.toInt + v.toInt).bmod (2 ^ 32) := by
  have hsext : (sext32 v).toInt = v.toInt := BitVec.toInt_signExtend_of_le (by decide)
  rw [← hsext]
  exact aluAdd_readings a (sext32 v)

/-- The wrapped difference under both readings (R140). -/
theorem aluSub_readings (a b : Word) :
    ((aluSub a b).toNat : Int) = ((a.toNat : Int) - b.toNat) % 2 ^ 32 ∧
      (aluSub a b).toInt = (a.toInt - b.toInt).bmod (2 ^ 32) := by
  refine ⟨?unsigned, BitVec.toInt_sub⟩
  rw [aluSub_toNat]
  omega

/-- Settles O24: each commits its result, whose two readings the lemma of its operation gives. -/
theorem arithmeticWrapsUnderBothReadings : Obligations.ArithmeticWrapsUnderBothReadings := by
  unfold Obligations.ArithmeticWrapsUnderBothReadings
  intro rs rt rd shamt imm16 s
  refine ⟨⟨_, rfl, ?addu⟩, ⟨_, rfl, ?subu⟩, ⟨_, rfl, ?addiu⟩⟩ <;> rw [commitResult_reg_same]
  case addu => exact aluAdd_readings _ _
  case subu => exact aluSub_readings _ _
  case addiu => exact aluAdd_sext32_readings _ _

/-! ## A store and the next read -/

/-- The effective address reads one register (R181). -/
theorem ea_congr {s t : State} (h : SameRegs s t) (rs : RegIdx) (imm16 : BitVec 16) :
    t.ea rs imm16 = s.ea rs imm16 := by
  simp only [State.ea, h rs]

/-- An address that passes the check of loads and stores passes the check of the fetch (R50, R55). -/
theorem fetchOK_of_memOK {c : Params} {a : Word} (h : memOK c a = true) : fetchOK c a = true := by
  obtain ⟨h4, hlo, hhi⟩ := (memOK_iff c a).1 h
  obtain ⟨hbase, -, htop⟩ := window_inside c
  exact (fetchOK_iff c a).2 ⟨h4, hbase.trans hlo, htop ▸ hhi⟩

/-- Settles O26: after the store the word at the address is the stored one (`commit_storesOnly`), and the
load finds the same address and check. -/
theorem storeThenLoadReturnsTheWord : Obligations.StoreThenLoadReturnsTheWord := by
  unfold Obligations.StoreThenLoadReturnsTheWord
  intro rs rt rs' rt' imm16 imm16' s hwf hok hea
  obtain ⟨⟨hword, -⟩, hregs⟩ := commit_storesOnly hwf (s.pc + 4) (s.ea rs imm16) (s.reg rt)
  have hea' := (ea_congr hregs rs' imm16').trans hea
  refine ⟨_, _, exec_sw_of_memOK rt hok, exec_lw_of_memOK rt' ?_, ?_⟩
  · rw [hea', commit_cfg, hok]
  · rw [commitResult_reg_same, hea', State.memWord, hword]

/-- Settles O27: the fetch check passes where the store's did, and the word there is the stored one. -/
theorem storeIsVisibleToTheNextFetch : Obligations.StoreIsVisibleToTheNextFetch := by
  unfold Obligations.StoreIsVisibleToTheNextFetch
  intro rs rt imm16 s hwf hok hea
  obtain ⟨⟨hword, -⟩, -⟩ := commit_storesOnly hwf (s.pc + 4) (s.ea rs imm16) (s.reg rt)
  refine ⟨_, exec_sw_of_memOK rt hok, (fetch_eq_some_iff _ _).2 ⟨?_, ?_⟩⟩
  · rw [commit_pc, commit_cfg, ← hea, fetchOK_of_memOK hok]
  · rw [commit_pc, ← hea, State.memWord]
    exact hword.symm

end Sys2Proof.Machine
end

section
/-! PROOF. The obligations of spec/20_memory.md on addresses and the memory array as data: the checks under
the signed reading (R58), and the canonical form (R31; log entry 4). -/

namespace Sys2Proof

namespace Machine

/-- A window that ends by the middle of the address space holds the same addresses under both readings:
an address above the middle is past its end unsigned and below its start signed (R58). -/
theorem window_iff_signed {lo hi : Nat} (hhi : hi ≤ 2 ^ 31) (a : Word) :
    a.toNat % 4 = 0 ∧ lo ≤ a.toNat ∧ a.toNat < hi ↔
      a.toInt % 4 = 0 ∧ (lo : Int) ≤ a.toInt ∧ a.toInt < hi := by
  rw [BitVec.toInt_eq_toNat_cond]
  split_ifs <;> omega

/-- Settles O29: both windows end at `TOP` (`window_iff_signed`). -/
theorem addressChecksAgreeOnSignedReading : Obligations.AddressChecksAgreeOnSignedReading := by
  unfold Obligations.AddressChecksAgreeOnSignedReading
  intro c a hc
  obtain ⟨-, htop⟩ := base_le_top_le hc
  exact ⟨(memOK_iff c a).trans (window_iff_signed htop a),
    (fetchOK_iff c a).trans (window_iff_signed htop a)⟩

end Machine

namespace Memory

/-- The first cell is the byte at its address. -/
theorem read_head (c : Host.Cell) (m : Memory) : read (c :: m) c.1 = c.2 :=
  if_pos rfl

/-- Past the first cell the rest of the memory is read. -/
theorem read_tail {c : Host.Cell} {a : Nat} (h : a ≠ c.1) (m : Memory) :
    read (c :: m) a = m.read a :=
  if_neg h

/-- A memory that reads like a canonical one has a cell at or below the first cell of that one. -/
theorem not_all_above_head {c : Host.Cell} {m m' : Memory} (h : wf (c :: m))
    (alike : ∀ a, read (c :: m) a = m'.read a) : ¬ ∀ d ∈ m', c.1 < d.1 := by
  intro above
  have hc : c.2 = unlisted := by rw [← read_head c m, alike, read_of_lt_all above]
  exact h.2 c (by simp) hc

/-- The first address of one canonical memory is not below that of another that reads alike. -/
theorem not_head_lt_head {c d : Host.Cell} {m m' : Memory} (h : wf (c :: m)) (h' : wf (d :: m'))
    (alike : ∀ a, read (c :: m) a = read (d :: m') a) : ¬ c.1 < d.1 := by
  intro hlt
  refine not_all_above_head h alike fun e he => ?_
  obtain rfl | he := List.mem_cons.1 he
  · exact hlt
  · exact hlt.trans (wf_head_lt h' e he)

/-- Settles O31, by induction on both lists: the first cells agree in address (`not_head_lt_head`) and so
in byte, and the rest read alike, since both read nothing at that address. -/
theorem canonicalMemoriesThatReadAlikeAreEqual :
    Obligations.CanonicalMemoriesThatReadAlikeAreEqual := by
  unfold Obligations.CanonicalMemoriesThatReadAlikeAreEqual
  intro m
  induction m with
  | nil =>
    intro m' _ h' alike
    cases m' with
    | nil => rfl
    | cons d m' => exact absurd (by simp) (not_all_above_head h' fun a => (alike a).symm)
  | cons c m ih =>
    intro m' h h' alike
    cases m' with
    | nil => exact absurd (by simp) (not_all_above_head h alike)
    | cons d m' =>
      have haddr : c.1 = d.1 := le_antisymm
        (not_lt.1 (not_head_lt_head h' h fun a => (alike a).symm))
        (not_lt.1 (not_head_lt_head h h' alike))
      have hbyte : c.2 = d.2 := by
        rw [← read_head c m, alike, haddr, read_head]
      have hrest (a : Nat) : read m a = read m' a := by
        by_cases ha : a = c.1
        · rw [ha, read_of_lt_all (wf_head_lt h), haddr, read_of_lt_all (wf_head_lt h')]
        · rw [← read_tail ha m, alike, read_tail (haddr ▸ ha)]
      rw [ih m' (wf_tail h) (wf_tail h') hrest, Prod.ext haddr hbyte]

end Memory

end Sys2Proof
end

section
/-! PROOF. The obligations on every step and every run (spec/10_state.md, 45_writeback_and_step.md,
60_exceptions.md, 70_reset_and_hazards.md): reset, the invariants that steps keep, and what follows
along runs from them, by one induction (`run_preserves`). -/

namespace Sys2Proof.Machine

/-! ## One step -/

/-- Every step answers a next state: of a running core by its report, of a halted one the same (R256). -/
theorem exists_step (s : State) : ∃ t, step s = .next t := by
  by_cases hrun : s.run = .running
  · obtain ⟨t, -, hstep, -⟩ := step_report hrun
    exact ⟨t, hstep⟩
  · exact ⟨s, step_halted hrun⟩

/-- A step is that of a running core, with its report, or keeps a halted one (R199). -/
theorem step_report_or_halted {s t : State} (hstep : step s = .next t) :
    (s.run = .running ∧ ∃ o, StepReport s t o) ∨ (s.run ≠ .running ∧ t = s) := by
  by_cases hrun : s.run = .running
  · obtain ⟨o, -, report⟩ := stepOutput_report hrun hstep
    exact .inl ⟨hrun, o, report⟩
  · cases (step_halted hrun).symm.trans hstep
    exact .inr ⟨hrun, rfl⟩

/-- Settles O34: the step is `haltNormal` (`step_of_stopAsserted`), and the blocks stop first as well. -/
theorem stopRequestOnlyHaltsTheCore : Obligations.StopRequestOnlyHaltsTheCore := by
  unfold Obligations.StopRequestOnlyHaltsTheCore
  intro s hrun hstop
  refine ⟨_, step_of_stopAsserted hrun hstop, rfl, rfl, fun _ => rfl, fun _ => rfl, rfl, ?output⟩
  case output =>
    simp only [stepOutput, hrun, hstop, blockStep_stop]
    rfl

/-- Settles O35: the pc fails the check (`fetch_eq_none_of_bad_pc`) or passes it (`fetch_eq_some_iff`). -/
theorem fetchCheckDecidesWhatIsFetched : Obligations.FetchCheckDecidesWhatIsFetched := by
  unfold Obligations.FetchCheckDecidesWhatIsFetched
  intro s
  refine ⟨fun hbad => ?faults, fun hok => ?fetches⟩
  case faults =>
    have hfetch := fetch_eq_none_of_bad_pc hbad
    exact ⟨hfetch, fun hrun hstop =>
      ⟨_, step_of_fetch_none hrun hstop hfetch, takeFault_takesFault s.sampled _⟩⟩
  case fetches => exact (fetch_eq_some_iff s _).2 ⟨(fetchOK_iff _ _).2 hok, rfl⟩

/-- No step writes the parameters. -/
theorem step_keeps_cfg {s t : State} (hstep : step s = .next t) : t.cfg = s.cfg := by
  obtain ⟨-, o, report⟩ | ⟨-, rfl⟩ := step_report_or_halted hstep
  · cases report with
    | stopped | faulted => rfl
    | completed => exact commit_cfg s.sampled _
  · rfl

/-- A step of a running core consumes one level of the stop request (R195). -/
theorem step_samples_stopReq {s t : State} (hrun : s.run = .running) (hstep : step s = .next t) :
    t.stopReq = s.stopReq.tail := by
  obtain ⟨o, -, report⟩ := stepOutput_report hrun hstep
  cases report with
  | stopped | faulted => rfl
  | completed => exact commit_stopReq s.sampled _

/-- Settles O44, by the cases of the report. -/
theorem stepKeepsParametersAndSamplesTheStopOnce :
    Obligations.StepKeepsParametersAndSamplesTheStopOnce := by
  unfold Obligations.StepKeepsParametersAndSamplesTheStopOnce
  exact fun s t hstep => ⟨step_keeps_cfg hstep, fun hrun => step_samples_stopReq hrun hstep⟩

/-! ## The invariant -/

/-- A commit whose store passed the check keeps the invariant: the word lies in the data window, which
lies in the memory array (R50, R55). -/
theorem inv_commit {s : State} (h : s.Inv) {c : Commit}
    (hok : ∀ a v, c.store = some (a, v) → memOK s.cfg a = true) : (s.commit c).Inv := by
  obtain ⟨hcfg, hwf, hwithin⟩ := h
  cases hstore : c.store with
  | none =>
    rw [State.Inv, commit_cfg, commit_mem_of_no_store _ _ hstore]
    exact ⟨hcfg, hwf, hwithin⟩
  | some store =>
    obtain ⟨a, v⟩ := store
    obtain ⟨hlo, hhi⟩ := word_inside_window hcfg (hok a v hstore)
    obtain ⟨hbase, -, htop⟩ := window_inside s.cfg
    rw [State.Inv, commit_cfg, commit_mem_of_store _ _ _ _ hstore]
    exact ⟨hcfg, Memory.wf_writeWord hwf _ _,
      Memory.within_writeWord hwithin ⟨hbase.trans hlo, htop ▸ hhi⟩ _⟩

/-- Every step keeps the invariant. -/
theorem step_keeps_inv {s t : State} (h : s.Inv) (hstep : step s = .next t) : t.Inv := by
  obtain ⟨-, o, report⟩ | ⟨-, rfl⟩ := step_report_or_halted hstep
  · cases report with
    | stopped | faulted => exact h
    | completed _ _ _ _ stores checked =>
      exact inv_commit (s := s.sampled) h fun a v hs => checked a (stores a v hs)
  · exact h

/-- Settles O51: only a completed `sw` writes memory, at an address that passed the check
(`inv_commit`). -/
theorem stepKeepsTheInvariant : Obligations.StepKeepsTheInvariant := by
  unfold Obligations.StepKeepsTheInvariant
  exact fun _ _ => step_keeps_inv

/-- A step changes no byte outside the data window. -/
theorem step_keeps_outside_window {s t : State} (h : s.Inv) (hstep : step s = .next t) {b : Nat}
    (hb : ¬ (s.cfg.dataLo ≤ b ∧ b < s.cfg.dataHi)) : t.mem.read b = s.mem.read b := by
  obtain ⟨-, o, report⟩ | ⟨-, rfl⟩ := step_report_or_halted hstep
  · obtain ⟨hcfg, hwf, -⟩ := h
    refine report.read_eq hwf fun a ha => ?_
    obtain ⟨hlo, hhi⟩ := word_inside_window hcfg (report.memOK_of_changedMem ha)
    omega
  · rfl

/-! ## The fault record -/

/-- A state not halted by a fault holds no record that could be false. -/
theorem faultRecordTrue_of_noFault {s : State} (h : s.NoFault) : s.FaultRecordTrue := by
  unfold State.FaultRecordTrue
  split
  case h_1 | h_2 => trivial
  all_goals exact absurd ‹_› (h _)

/-- The cause that halts a core by a fault is what the record of the fault says: the fault changes neither
the pc nor anything the cause is about (R221 to R224). -/
theorem faultRecordTrue_of_haltsWith {s : State} {f : Fault} (h : HaltsWith s (.haltedFault f)) :
    (s.sampled.takeFault f).FaultRecordTrue := by
  cases h with
  | fetch _ unfetched => exact ⟨rfl, unfetched⟩
  | unsupported _ fetched undecoded => exact ⟨rfl, fetched, undecoded⟩
  | @access w i rs rt imm16 _ fetched decoded accesses bad =>
    refine ⟨rfl, bad, w, rs, rt, imm16, fetched, rfl, ?_⟩
    obtain rfl | rfl := accesses
    · exact .inl decoded
    · exact .inr decoded

/-- Settles O52: a fault taken in the step has its cause (`haltsWith_of_step`), no other step of a running
core leaves a record, and a halted core keeps the one it has. -/
theorem stepKeepsFaultRecordsTrue : Obligations.StepKeepsFaultRecordsTrue := by
  unfold Obligations.StepKeepsFaultRecordsTrue
  intro s t h hstep
  obtain ⟨hrun, o, report⟩ | ⟨-, rfl⟩ := step_report_or_halted hstep
  case inr => exact h
  cases report with
  | stopped => exact faultRecordTrue_of_noFault nofun
  | faulted => exact faultRecordTrue_of_haltsWith (haltsWith_of_step hrun hstep nofun)
  | completed =>
    refine faultRecordTrue_of_noFault fun f hf => ?_
    cases ((commit_run s.sampled _).trans hrun).symm.trans hf

/-! ## Runs -/

/-- Every run ends in a next state. -/
theorem exists_run (n : Nat) (s : State) : ∃ t : State, Sys2Proof.core.run n s = .next t := by
  induction n generalizing s with
  | zero => exact ⟨s, rfl⟩
  | succ n ih =>
    obtain ⟨t, hstep⟩ := exists_step s
    rw [run_succ n hstep]
    exact ih t

/-- What every step keeps holds at the end of every run from a state that has it. -/
theorem run_preserves {P : State → Prop} (hP : ∀ s t, P s → step s = .next t → P t) {n : Nat}
    {s t : State} (hs : P s) (hrun : Sys2Proof.core.run n s = .next t) : P t := by
  induction n generalizing s with
  | zero =>
    cases hrun
    exact hs
  | succ n ih =>
    obtain ⟨u, hstep⟩ := exists_step s
    rw [run_succ n hstep] at hrun
    exact ih (hP s u hs hstep) hrun

/-- A run of `m + n` steps is a run of `m` steps and then one of `n`. -/
theorem run_add {m : Nat} {s t : State} (n : Nat) (hrun : Sys2Proof.core.run m s = .next t) :
    Sys2Proof.core.run (m + n) s = Sys2Proof.core.run n t := by
  induction m generalizing s with
  | zero =>
    cases hrun
    rw [Nat.zero_add]
  | succ m ih =>
    obtain ⟨u, hstep⟩ := exists_step s
    rw [run_succ m hstep] at hrun
    rw [Nat.add_right_comm, run_succ _ hstep, ih hrun]

/-- A halted core is where it was after any number of steps (R199). -/
theorem run_halted {s : State} (h : s.run ≠ .running) (n : Nat) :
    Sys2Proof.core.run n s = .next s := by
  induction n with
  | zero => rfl
  | succ n ih => rw [run_succ n (step_halted h), ih]

/-- Settles O33, by induction on the number of steps (`exists_run`). -/
theorem everyRunAnswersANextState : Obligations.EveryRunAnswersANextState := by
  unfold Obligations.EveryRunAnswersANextState
  exact exists_run

/-- Settles O39: the run by `run_halted`; the gate of the run state gives the step no output. -/
theorem haltedStatesAreAbsorbing : Obligations.HaltedStatesAreAbsorbing := by
  unfold Obligations.HaltedStatesAreAbsorbing
  intro n s h
  refine ⟨run_halted h n, ?_⟩
  cases hrun : s.run with
  | running => exact absurd hrun h
  | haltedNormal | haltedFault => simp only [stepOutput, hrun]

/-- Settles O45: the state after `m` steps leads to the end of the run (`run_add`), and had it been halted
by a fault it would be that end (`run_halted`). -/
theorem safeRunsTookNoEarlierFault : Obligations.SafeRunsTookNoEarlierFault := by
  unfold Obligations.SafeRunsTookNoEarlierFault
  rintro m n s hmn ⟨t, ht, hsafe⟩
  obtain ⟨u, hu⟩ := exists_run m s
  obtain ⟨k, rfl⟩ := Nat.exists_eq_add_of_le hmn
  rw [run_add k hu] at ht
  refine ⟨u, hu, fun f hf => ?_⟩
  have hut : u = t := by cases (run_halted (by simp [hf]) k).symm.trans ht; rfl
  exact hsafe f (hut ▸ hf)

/-- Settles O28: each step keeps the invariant, the parameters and with them the window, and the byte
outside it (`run_preserves`). -/
theorem onlyTheDataWindowEverChanges : Obligations.OnlyTheDataWindowEverChanges := by
  unfold Obligations.OnlyTheDataWindowEverChanges
  intro n s t hinv hrun a ha
  have kept : t.Inv ∧ t.cfg = s.cfg ∧ t.mem.read a = s.mem.read a := by
    refine run_preserves (P := fun u => u.Inv ∧ u.cfg = s.cfg ∧ u.mem.read a = s.mem.read a)
      ?step ⟨hinv, rfl, rfl⟩ hrun
    rintro u v ⟨huinv, hucfg, hua⟩ hstep
    exact ⟨step_keeps_inv huinv hstep, (step_keeps_cfg hstep).trans hucfg,
      (step_keeps_outside_window huinv hstep (hucfg ▸ ha)).trans hua⟩
  exact kept.2.2

/-! ## Reset -/

/-- Settles O47: the image fails the precondition of reset. -/
theorem resetRefusesAnImageThatDoesNotFit : Obligations.ResetRefusesAnImageThatDoesNotFit := by
  unfold Obligations.ResetRefusesAnImageThatDoesNotFit
  intro c image stops hlong
  refine Option.eq_none_iff_forall_ne_some.2 fun s hs => ?_
  obtain ⟨⟨-, hfits⟩, -⟩ := (resetWith_eq_some_iff ..).1 hs
  exact absurd hfits (not_le.2 hlong)

/-- Settles O48: the registers by `initial_reg`; the default parameters meet R7's constraints. -/
theorem defaultResetValues : Obligations.DefaultResetValues := by
  unfold Obligations.DefaultResetValues
  refine ⟨initial_reg Params.default [] [] 29, fun r hr => ?others, rfl, fun _ => rfl, rfl, ?reset⟩
  case others => exact (initial_reg Params.default [] [] r).trans (if_neg hr)
  case reset => exact (resetWith_eq_some_iff ..).2 ⟨by decide, rfl⟩

/-- The initial state of legal parameters and a fitting image meets the invariant. -/
theorem inv_initial {c : Params} {image : List Word} (hc : c.wf) (hfits : c.imageFits image)
    (stops : List Bool) : (State.initial c image stops).Inv := by
  refine ⟨hc, Memory.wf_loadImage Memory.wf_nil _ _, Memory.within_loadImage _ nofun ⟨le_rfl, ?_⟩⟩
  change c.base + 4 * image.length ≤ c.base + 4 * (c.ni + c.nd)
  omega

/-- Settles O50: `inv_initial`, and a running core has no fault record. -/
theorem resetMeetsTheInvariants : Obligations.ResetMeetsTheInvariants := by
  unfold Obligations.ResetMeetsTheInvariants
  intro c image stops s hs
  obtain ⟨⟨hc, hfits⟩, rfl⟩ := (resetWith_eq_some_iff ..).1 hs
  exact ⟨inv_initial hc hfits stops, faultRecordTrue_of_noFault nofun⟩

/-- The first fetch after reset gives the word at `BASE`, the image's first (R253). -/
theorem initial_fetch {c : Params} (hc : c.wf) (image : List Word) (stops : List Bool) :
    (State.initial c image stops).fetch = some (image.getD 0 0) := by
  have hpc := initial_pc_toNat hc image stops
  have hword := Memory.readWord_loadImage Memory.wf_nil c.base image 0
  obtain ⟨h4, hni, -, -⟩ := hc
  rw [Memory.readWord_nil] at hword
  refine (fetch_eq_some_iff _ _).2 ⟨(fetchOK_iff _ _).2 ?_, ?_⟩
  · rw [hpc]
    refine ⟨h4, le_rfl, ?_⟩
    change c.base < c.base + 4 * (c.ni + c.nd)
    omega
  · rw [State.memWord, hpc]
    exact hword.symm

/-- A result that its destination already holds moves only the pc. -/
theorem onlyMovesPc_of_computesInto {s t : State} {d : RegIdx} {v : Word}
    (h : ComputesInto s t d v) (hv : v = s.reg d) : OnlyMovesPc s t (s.pc + 4) := by
  obtain ⟨⟨hd, hothers⟩, hpc, hmem, hcontrol⟩ := h
  refine ⟨hpc, fun r => ?_, hmem, hcontrol⟩
  by_cases hr : r = d
  · rw [hr, hd, hv]
  · exact hothers r hr

/-- The zero word is `sll $0, $0, 0` (R94), which shifts register 0 by nothing into itself. -/
theorem step_zeroWord {s : State} (hrun : s.run = .running) (hstop : s.stopAsserted = false)
    (hfetch : s.fetch = some 0) :
    ∃ t, step s = .next t ∧ OnlyMovesPc s.sampled t (s.pc + 4) := by
  have hdec : decodeInstr 0 s.pc = .ok (.sll 0 0 0 0) := decodeInstr_encode (.sll 0 0 0 0) s.pc
  have hshift : shiftLeft (s.sampled.reg 0) 0 = s.sampled.reg 0 := BitVec.shiftLeft_zero _
  have hresult := commitResult_computesInto s.sampled 0 (shiftLeft (s.sampled.reg 0) 0)
  exact ⟨_, step_eq_exec hrun hstop hfetch hdec, onlyMovesPc_of_computesInto hresult hshift⟩

/-- Settles O49: the first fetch by `initial_fetch`, the zero word by `step_zeroWord`. -/
theorem executionBeginsWithTheImage : Obligations.ExecutionBeginsWithTheImage := by
  unfold Obligations.ExecutionBeginsWithTheImage
  intro c image stops s hs
  obtain ⟨⟨hc, -⟩, rfl⟩ := (resetWith_eq_some_iff ..).1 hs
  have hfetch := initial_fetch hc image stops
  exact ⟨hfetch, fun hstop hzero => step_zeroWord rfl hstop (hzero ▸ hfetch)⟩

end Sys2Proof.Machine
end
